-- ==== Sys2Proof/Word.lean ====
section
/-! DEFINITION. The plain data every other file speaks of: bytes, command words, buffers and queues
(00_scope.md section 5). -/
namespace Sys2Proof

/-- A byte, an integer in 0 .. 255 without a sign (00_scope.md section 5). -/
abbrev Byte := BitVec 8

/-- A command word, and the width of STATUS: 32 bits (parameter CMDW, rules R6 and R50). -/
abbrev Word := BitVec 32

/-- A dimension register or a 16-bit immediate (parameter REGW, rules R6, R13 and R52). -/
abbrev Dim := BitVec 16

/-- A buffer: a finite sequence of bytes with its own length (00_scope.md section 5). -/
abbrev Buffer := List Byte

/-- A queue: a finite sequence of buffers, so `[]` and `[[]]` differ (rule R16). -/
abbrev Queue := List Buffer

end Sys2Proof
end

