-- ==== Sys2Proof/Syntax.lean ====
section
/-! DEFINITION. The seventeen commands (30_encoding.md rule R53), one constructor per row of
spec/opcode_table.json, in the table's order. -/
namespace Sys2Proof

/-- A command with its operand. The operand types carry the ranges of rule R52, so no ill-formed term exists;
what can be ill-formed is a word (Sys2Proof/WellFormed.lean) or a source operand (Sys2Proof/Machine/Assembler.lean). -/
inductive Instr where
  | nop
  | setw (imm16 : Dim)
  | seth (imm16 : Dim)
  | putb (imm8 : Byte)
  | newb
  | clri
  | clro
  | clre
  | srst
  | xfwd
  | xinv
  | dfwd
  | dinv
  | cmpr
  | dcmp
  | enc
  | dec
  deriving DecidableEq, Repr

end Sys2Proof
end

