-- ==== Sys2Proof/WellFormed.lean ====
section
/-! DEFINITION. Which 32-bit words are commands, by the match and mask columns of rule R53, and each command's row
of that table. The decoder (Sys2Proof/Decode.lean) is written from the pseudocode of rule R56 instead, so the two
check each other. -/
namespace Sys2Proof

/-- The three formats of rule R51. -/
inductive Format where
  | n
  | i16
  | i8
  deriving DecidableEq, Repr

/-- One row of the table of rule R53. -/
structure OpcodeRow where
  mnemonic : String
  op : Byte
  format : Format
  value : Word
  mask : Word
  deriving DecidableEq, Repr

/-- The table of rule R53 in its order; `value` is its column "match". -/
def opcodeRows : List OpcodeRow :=
  [⟨"NOP", 0x00, .n, 0x00000000, 0xFFFFFFFF⟩,
   ⟨"SETW", 0x01, .i16, 0x01000000, 0xFFFF0000⟩,
   ⟨"SETH", 0x02, .i16, 0x02000000, 0xFFFF0000⟩,
   ⟨"PUTB", 0x03, .i8, 0x03000000, 0xFFFFFF00⟩,
   ⟨"NEWB", 0x04, .n, 0x04000000, 0xFFFFFFFF⟩,
   ⟨"CLRI", 0x05, .n, 0x05000000, 0xFFFFFFFF⟩,
   ⟨"CLRO", 0x06, .n, 0x06000000, 0xFFFFFFFF⟩,
   ⟨"CLRE", 0x07, .n, 0x07000000, 0xFFFFFFFF⟩,
   ⟨"SRST", 0x0F, .n, 0x0F000000, 0xFFFFFFFF⟩] ++
  [⟨"XFWD", 0x10, .n, 0x10000000, 0xFFFFFFFF⟩,
   ⟨"XINV", 0x11, .n, 0x11000000, 0xFFFFFFFF⟩,
   ⟨"DFWD", 0x20, .n, 0x20000000, 0xFFFFFFFF⟩,
   ⟨"DINV", 0x21, .n, 0x21000000, 0xFFFFFFFF⟩,
   ⟨"CMPR", 0x30, .n, 0x30000000, 0xFFFFFFFF⟩,
   ⟨"DCMP", 0x31, .n, 0x31000000, 0xFFFFFFFF⟩,
   ⟨"ENC", 0x40, .n, 0x40000000, 0xFFFFFFFF⟩,
   ⟨"DEC", 0x41, .n, 0x41000000, 0xFFFFFFFF⟩]

/-- "A word `w` is the command exactly when `w & mask = match`" (rule R53). -/
def OpcodeRow.covers (r : OpcodeRow) (w : Word) : Bool := w &&& r.mask == r.value

/-- The number of a command's row in the table of rule R53. -/
def Instr.rowIndex : Instr → Nat
  | .nop => 0
  | .setw _ => 1
  | .seth _ => 2
  | .putb _ => 3
  | .newb => 4
  | .clri => 5
  | .clro => 6
  | .clre => 7
  | .srst => 8
  | .xfwd => 9
  | .xinv => 10
  | .dfwd => 11
  | .dinv => 12
  | .cmpr => 13
  | .dcmp => 14
  | .enc => 15
  | .dec => 16

/-- A word is well formed when some row of the table covers it; every other word is illegal (rules R54, R55). -/
def wordWellFormed (w : Word) : Bool := opcodeRows.any fun r => r.covers w

end Sys2Proof
end

