-- ==== Sys2Proof/Decode.lean ====
section
/-! DEFINITION. The decoder of rule R56, total on every word and on every byte sequence, and after it the encoder
written from the formats of rule R51 and the opcodes of rule R53. -/
namespace Sys2Proof

/-- `w[31:24]` (rule R50). -/
def opField (w : Word) : Byte := w.extractLsb' 24 8

/-- `w[23:0]` (rule R50). -/
def argField (w : Word) : BitVec 24 := w.extractLsb' 0 24

/-- Why a word is ILLEGAL. The hardware does not tell the two apart (rule R174): the names are for the reader. -/
inductive Illegal where
  /-- The opcode is not in the table (rule R54). -/
  | reservedOpcode
  /-- The opcode is in the table and a must-be-zero bit is set (rule R55). -/
  | mustBeZero
  deriving DecidableEq, Repr

/-- What `decode` of rule R56 returns. -/
inductive Decoded where
  | command (i : Instr)
  | illegal (why : Illegal)
  deriving DecidableEq, Repr

/-- Format N: `arg` must be 0 (rule R51). -/
def decodeN (i : Instr) (w : Word) : Decoded :=
  if argField w = 0 then .command i else .illegal .mustBeZero

/-- Format I16: `arg[23:16]` must be 0, the immediate is `arg[15:0]` (rules R51 and R52). -/
def decodeI16 (f : Dim → Instr) (w : Word) : Decoded :=
  if (argField w).extractLsb' 16 8 = 0 then .command (f ((argField w).extractLsb' 0 16))
  else .illegal .mustBeZero

/-- Format I8: `arg[23:8]` must be 0, the immediate is `arg[7:0]` (rules R51 and R52). -/
def decodeI8 (f : Byte → Instr) (w : Word) : Decoded :=
  if (argField w).extractLsb' 8 16 = 0 then .command (f ((argField w).extractLsb' 0 8))
  else .illegal .mustBeZero

/-- Rule R56. -/
def decode (w : Word) : Decoded :=
  if opField w = 0x00 then decodeN .nop w
  else if opField w = 0x01 then decodeI16 .setw w
  else if opField w = 0x02 then decodeI16 .seth w
  else if opField w = 0x03 then decodeI8 .putb w
  else if opField w = 0x04 then decodeN .newb w
  else if opField w = 0x05 then decodeN .clri w
  else if opField w = 0x06 then decodeN .clro w
  else if opField w = 0x07 then decodeN .clre w
  else if opField w = 0x0F then decodeN .srst w
  else if opField w = 0x10 then decodeN .xfwd w
  else if opField w = 0x11 then decodeN .xinv w
  else if opField w = 0x20 then decodeN .dfwd w
  else if opField w = 0x21 then decodeN .dinv w
  else if opField w = 0x30 then decodeN .cmpr w
  else if opField w = 0x31 then decodeN .dcmp w
  else if opField w = 0x40 then decodeN .enc w
  else if opField w = 0x41 then decodeN .dec w
  else .illegal .reservedOpcode

/-! ### Words on a byte channel (rule R59) -/

/-- Four bytes, the least significant first (rule R59). -/
def bytesOfWord (w : Word) : List Byte :=
  [w.extractLsb' 0 8, w.extractLsb' 8 8, w.extractLsb' 16 8, w.extractLsb' 24 8]

/-- The word whose least significant byte is `b0` (rule R59). -/
def wordOfBytes (b0 b1 b2 b3 : Byte) : Word := b3 ++ b2 ++ b1 ++ b0

/-- What the front of a byte sequence decodes to, with the bytes after it. -/
inductive DecodedBytes where
  | command (i : Instr) (rest : List Byte)
  | illegal (why : Illegal) (rest : List Byte)
  /-- Fewer than four bytes: no word is there (log entry 11). -/
  | truncated
  deriving DecidableEq, Repr

/-- The word at the front of a byte channel, decoded (rules R50, R56 and R59). -/
def decodeBytes : List Byte → DecodedBytes
  | b0 :: b1 :: b2 :: b3 :: rest =>
    match decode (wordOfBytes b0 b1 b2 b3) with
    | .command i => .command i rest
    | .illegal why => .illegal why rest
  | _ => .truncated

/-- The word an opcode-table row's bits stand for: the low `nbits` bits of `w`, the bits above them 0. -/
def tableWord (nbits w : Nat) : Word := BitVec.ofNat 32 (w % 2 ^ nbits)

/-- The instruction the decoder reads from those bits, laid out as bytes in the order of rule R59. -/
def decodeTableWord (nbits w : Nat) : Option Instr :=
  match decodeBytes (bytesOfWord (tableWord nbits w)) with
  | .command i _ => some i
  | .illegal _ _ => none
  | .truncated => none

/-! ### The encoder -/

/-- Format N (rule R51). -/
def wordN (op : Byte) : Word := op ++ 0#24

/-- Format I16 (rule R51). -/
def wordI16 (op : Byte) (imm16 : Dim) : Word := op ++ 0#8 ++ imm16

/-- Format I8 (rule R51). -/
def wordI8 (op : Byte) (imm8 : Byte) : Word := op ++ 0#16 ++ imm8

/-- The word of a command (rules R51 and R53). -/
def encode : Instr → Word
  | .nop => wordN 0x00
  | .setw imm16 => wordI16 0x01 imm16
  | .seth imm16 => wordI16 0x02 imm16
  | .putb imm8 => wordI8 0x03 imm8
  | .newb => wordN 0x04
  | .clri => wordN 0x05
  | .clro => wordN 0x06
  | .clre => wordN 0x07
  | .srst => wordN 0x0F
  | .xfwd => wordN 0x10
  | .xinv => wordN 0x11
  | .dfwd => wordN 0x20
  | .dinv => wordN 0x21
  | .cmpr => wordN 0x30
  | .dcmp => wordN 0x31
  | .enc => wordN 0x40
  | .dec => wordN 0x41

end Sys2Proof
end

