-- ==== Sys2Proof/Config.lean ====
section
/-! DEFINITION. What an implementation fixes (00_scope.md rule R6, 10_state.md rule R19): the types of the
parameters, and the one value the spec leaves open, CODEC. The values this hardware takes for the others are
in Sys2Proof/Machine/Params.lean. -/
namespace Sys2Proof

/-- The parameter CODEC (rules R140 to R143): two total functions of their input bytes alone, bound by one law.
`none` is the failure of `decompress`. -/
structure Codec where
  /-- Rule R141: total and deterministic, never fails. -/
  compress : Buffer → Buffer
  /-- Rule R142: an output or a report of failure, for every input. -/
  decompress : Buffer → Option Buffer
  /-- Rule R143, the only equation a model may assume. -/
  law : ∀ x, decompress (compress x) = some x

/-- The codec that copies (CODEC_ID of 95_test_vectors.md section 0, for testing only). It also shows that the
law of rule R143 can be met. -/
def Codec.identity : Codec where
  compress x := x
  decompress c := some c
  law _ := rfl

/-- What the 2×2 chroma mean is taken of (parameter AVG_MODE, rules R111 and R118). -/
inductive AvgMode where
  /-- The mean of the four untruncated values, truncated once (rule R111). -/
  | meanThenTruncate
  /-- The mean of the four truncated bytes (rule R118, the reading not taken by this hardware). -/
  | truncateThenMean
  deriving DecidableEq, Repr

/-- The parameter COEF_FWD (rules R6 and R91): the nine coefficients and two offsets as integers over the
common scale `scale`. -/
structure CoefFwd where
  scale : Nat
  yr : Int
  yg : Int
  yb : Int
  ur : Int
  ug : Int
  ub : Int
  uo : Int
  vr : Int
  vg : Int
  vb : Int
  vo : Int
  deriving DecidableEq, Repr

/-- The parameter COEF_INV (rules R6 and R97): the four coefficients as integers over the common scale `scale`,
and the chroma offset, which is not scaled. -/
structure CoefInv where
  scale : Nat
  rv : Int
  gu : Int
  gv : Int
  bu : Int
  offset : Int
  deriving DecidableEq, Repr

/-- A finite value of the parameter QCAP: what each of INQ and OUTQ can hold, in bytes and in buffers
(rule R6; how it is measured is log entry 2). -/
structure QCap where
  bytes : Nat
  buffers : Nat
  deriving DecidableEq, Repr

/-- The configuration (rules R6 and R19). It is fixed for the life of the hardware and no command changes it. -/
structure Config where
  codec : Codec
  coefFwd : CoefFwd
  coefInv : CoefInv
  avgMode : AvgMode
  /-- QCAP: `none` is the default, unbounded (rule R6). -/
  qcap : Option QCap
  /-- ALEN: `none` is the default, lengths are natural numbers (rule R6). -/
  alen : Option Nat

/-- The hardware's own CODEC: OPEN in rule R6, so an uninterpreted constant without a body. Its type carries the
law of rule R143, and nothing else about it can be proved (log entry 1). The argument only says that some codec
exists. -/
opaque Config.openCodec [Inhabited Codec] : Codec

end Sys2Proof
end

