-- ==== Sys2Proof/Machine/Flags.lean ====
section
/-! DEFINITION. The error codes (60_exceptions.md rule R170) and the fields of STATUS (10_state.md rules R14 and
R15): the only flags the hardware has. -/
namespace Sys2Proof.Machine

/-- The five errors of rule R170. -/
inductive ErrCode where
  | dimension
  | sizeMismatch
  | corruptStream
  | illegalCommand
  | operandCount
  deriving DecidableEq, Repr

/-- The code of an error (rule R170). -/
def ErrCode.code : ErrCode → BitVec 4
  | .dimension => 1
  | .sizeMismatch => 2
  | .corruptStream => 3
  | .illegalCommand => 4
  | .operandCount => 5

/-- "The sticky flag of error code `c` (1 to 5) is bit `7 + c`" (rule R14). -/
def ErrCode.stickyBit (e : ErrCode) : Nat := 7 + e.code.toNat

/-- `STATUS.ERR`, bits 3:0 (rule R14). -/
def statusErr (st : Word) : BitVec 4 := st.extractLsb' 0 4

/-- The sticky flag of `e` (rule R14). -/
def statusFlag (e : ErrCode) (st : Word) : Bool := st.getLsbD e.stickyBit

/-- `STATUS.ERR <- c`, the other 28 bits unchanged. -/
def setErr (c : BitVec 4) (st : Word) : Word := st.extractLsb' 4 28 ++ c

/-- `STATUS[7+c] <- 1`, the other bits unchanged. -/
def setSticky (e : ErrCode) (st : Word) : Word := st ||| (1#32 <<< e.stickyBit)

/-- What an error writes to STATUS: its code and its sticky flag (rules R176 and R177). -/
def statusRaise (e : ErrCode) (st : Word) : Word := setSticky e (setErr e.code st)

/-- What a successful processing command writes to STATUS: `ERR <- 0` (rule R15 (a)). -/
def statusSuccess (st : Word) : Word := setErr 0 st

end Sys2Proof.Machine
end

