-- ==== Sys2Proof/Machine/State.lean ====
section
/-! DEFINITION. The architectural state (10_state.md rule R10), the model's record of what the host does next
(rules R11 and R19), the reasons a step can stop, and the state after reset (rule R20). -/
namespace Sys2Proof.Machine

/-- One thing the host does to the block that makes it step (70_reset_and_hazards.md rule R205). Reads change
nothing and are functions of the state instead (Sys2Proof/Machine/HostPort.lean). -/
inductive HostMove where
  /-- Issue one command word on the command port (rule R38). -/
  | word (w : Word)
  /-- Apply and release the reset input (rule R200). -/
  | reset
  deriving DecidableEq, Repr

/-- The five items of rule R10, and the two fields of the model's own that rules R11 and R209 describe. -/
structure State where
  /-- Register 0, the frame width (rule R13). -/
  w : Dim
  /-- Register 1, the frame height (rule R13). -/
  h : Dim
  /-- Register 2, read-only to the host (rule R14). -/
  status : Word
  /-- The input queue (rule R16). -/
  inq : Queue
  /-- The output queue (rule R17). -/
  outq : Queue
  /-- The MODEL's own: the list of moves the host makes (rule R19; log entry 3). No command changes it. -/
  moves : List HostMove
  /-- The MODEL's own: the index of the next move (rules R11 and R209; log entry 3). -/
  pos : Nat
  deriving DecidableEq, Repr

/-- Reasons to stop with a fault: none. Every error of the spec is a next state (rules R176 and R177), and nothing
is stuck (93_implementation_defined.md Part 1), so no step ever faults (log entry 5). -/
inductive Fault where
  deriving DecidableEq, Repr

/-- Reasons to take no step. -/
inductive Refusal where
  /-- Raised by an arm of `exec` that has no meaning yet. Safe. No arm raises it. -/
  | notModelled (mnemonic : String)
  /-- Raised by `step` after the host's last move: the run has ended (rule R208). Safe. -/
  | noHostMove
  /-- Raised by PUTB, NEWB and a successful processing command under a finite QCAP or ALEN when the next state
  does not fit (93_implementation_defined.md U8). Safe. Never raised at the default, unbounded. -/
  | capacityExceeded
  /-- Raised by the host's register read for a number of 3 or above, which does not exist (rule R37). Safe. -/
  | noSuchRegister (n : Nat)
  /-- Raised by the host's OUTQ read outside the result (rule R40, U9). Safe. -/
  | outqReadOutOfRange
  deriving DecidableEq, Repr

/-- Rule R20: `W = 0`, `H = 0`, `STATUS = 0`, `INQ = []`, `OUTQ = []`. The host has issued nothing yet. -/
def State.reset : State where
  w := 0
  h := 0
  status := 0
  inq := []
  outq := []
  moves := []
  pos := 0

end Sys2Proof.Machine
end

