-- ==== Sys2Proof/Machine/Ops.lean ====
section
/-! DEFINITION. The named operations on the state: field writes, the two queue appends, error entry
(60_exceptions.md rules R176 and R177; there is no return from an error, rule R180), the end of a successful
processing command (rule R80), reset (rules R20 and R200), and the capacity parameters (U8). -/
namespace Sys2Proof.Machine

/-- What a meaning answers. -/
abbrev Result := Host.Outcome State Fault Refusal

/-! ### Field writes -/

/-- `W <- v`. -/
def State.setW (v : Dim) (s : State) : State := { s with w := v }

/-- `H <- v`. -/
def State.setH (v : Dim) (s : State) : State := { s with h := v }

/-- `STATUS <- v`. -/
def State.setStatus (v : Word) (s : State) : State := { s with status := v }

/-- `INQ <- q`. -/
def State.setInq (q : Queue) (s : State) : State := { s with inq := q }

/-- `OUTQ <- q`. -/
def State.setOutq (q : Queue) (s : State) : State := { s with outq := q }

/-- The position moves on by exactly 1, also when the word raises an error (rules R11 and R209). -/
def State.advance (s : State) : State := { s with pos := s.pos + 1 }

/-- The host's next move (rules R11 and R208), or none when the run has ended. -/
def State.nextMove (s : State) : Option HostMove := s.moves[s.pos]?

/-! ### Queues -/

/-- PUTB's write: the byte goes to the last buffer, and opens the first one when the queue is empty (rule R73). -/
def appendByte (b : Byte) : Queue → Queue
  | [] => [[b]]
  | [buf] => [buf ++ [b]]
  | buf :: next :: rest => buf :: appendByte b (next :: rest)

/-- NEWB's write: one empty buffer at the tail (rule R74). -/
def appendBuffer (q : Queue) : Queue := q ++ [[]]

/-! ### Errors, success, reset -/

/-- Error entry for errors 1, 2, 3 and 5 (rule R176). -/
def State.raise (e : ErrCode) (s : State) : State :=
  ((s.setStatus (statusRaise e s.status)).setInq []).setOutq []

/-- Error entry for error 4 (rule R177): STATUS only. -/
def State.illegalWord (s : State) : State := s.setStatus (statusRaise .illegalCommand s.status)

/-- The last three lines of rule R80: `OUTQ <- res; INQ <- []; STATUS.ERR <- 0`. -/
def State.succeed (res : Queue) (s : State) : State :=
  ((s.setOutq res).setInq []).setStatus (statusSuccess s.status)

/-- The five items at their reset values (rules R20, R78, R200). The host and its list of moves are outside the
block and stay. -/
def State.resetItems (s : State) : State :=
  { State.reset with moves := s.moves, pos := s.pos }

/-! ### Capacity (parameters QCAP and ALEN, U8; log entry 2) -/

/-- A queue fits QCAP: its buffers in number and its bytes in total. -/
def fitsCap : Option QCap → Queue → Bool
  | none, _ => true
  | some c, q => decide (q.length ≤ c.buffers) && decide ((q.map List.length).sum ≤ c.bytes)

/-- A queue fits ALEN: the number of its buffers and each buffer's length are numbers of that many bits. -/
def fitsLen : Option Nat → Queue → Bool
  | none, _ => true
  | some n, q => decide (q.length < 2 ^ n) && q.all fun b => decide (b.length < 2 ^ n)

/-- Both queues of a state fit. -/
def fits (cfg : Config) (s : State) : Bool :=
  fitsCap cfg.qcap s.inq && fitsCap cfg.qcap s.outq && (fitsLen cfg.alen s.inq && fitsLen cfg.alen s.outq)

/-- The next state, unless a finite capacity cannot hold it: then the step is refused, "not fault, not truncate,
not wrap a length" (U8). -/
def deliver (cfg : Config) (s : State) : Result :=
  if fits cfg s then .next s else .refused .capacityExceeded

/-! ### The frame of every processing command -/

/-- What the checks and the result function of a processing command give: the first error that applies, or the
result queue (rule R80). -/
abbrev Checked := Except ErrCode Queue

/-- Rule R80: the operands are all of INQ, the first failing check raises, otherwise OUTQ is replaced, INQ
consumed and ERR cleared. -/
def processing (cfg : Config) (checked : Checked) (s : State) : Result :=
  match checked with
  | .error e => .next (s.raise e)
  | .ok res => deliver cfg (s.succeed res)

end Sys2Proof.Machine
end

