-- ==== Sys2Proof/Machine/Params.lean ====
section
/-! DEFINITION. The values this hardware takes for its parameters (00_scope.md rule R6). -/
namespace Sys2Proof.Machine

/-- COEF_FWD with the digits of rule R91 over the scale 10000: 0.299, 0.587, 0.114; −0.169, −0.331, 0.449, +128;
0.499, −0.418, −0.0813, +128. UNVERIFIED: the spec says the literals are unaudited (U2; log entry 7). -/
def hwCoefFwd : CoefFwd where
  scale := 10000
  yr := 2990
  yg := 5870
  yb := 1140
  ur := -1690
  ug := -3310
  ub := 4490
  uo := 1280000
  vr := 4990
  vg := -4180
  vb := -813
  vo := 1280000

/-- COEF_INV with the digits of rule R97 over the scale 1000: 1.402; 0.344, 0.714; 1.772; offset 128.
UNVERIFIED as for `hwCoefFwd` (log entry 7). -/
def hwCoefInv : CoefInv where
  scale := 1000
  rv := 1402
  gu := 344
  gv := 714
  bu := 1772
  offset := 128

/-- The configuration of this hardware: the values of rule R6, CODEC open (log entry 1), QCAP and ALEN at their
default, unbounded (DESIGN CHOICE among the values rule R6 leaves open; log entry 2). -/
def hw : Config where
  codec := @Config.openCodec ⟨Codec.identity⟩
  coefFwd := hwCoefFwd
  coefInv := hwCoefInv
  avgMode := .meanThenTruncate
  qcap := none
  alen := none

end Sys2Proof.Machine
end

