-- ==== Sys2Proof/Machine/Control.lean ====
section
/-! DEFINITION. The control commands and the data port (40_control_and_data_port.md rules R70 to R78). None raises
an error (rule R81); only CLRE and SRST write STATUS (rule R15). -/
namespace Sys2Proof.Machine

/-- PUTB in a given configuration. -/
def putbIn (cfg : Config) (imm8 : Byte) (s : State) : Result :=
  deliver cfg (s.setInq (appendByte imm8 s.inq))

/-- NEWB in a given configuration. -/
def newbIn (cfg : Config) (s : State) : Result := deliver cfg (s.setInq (appendBuffer s.inq))

/-- NOP (rule R70). -/
def execNop (s : State) : Result := .next s

/-- SETW (rule R71): stored unchecked. -/
def execSetw (imm16 : Dim) (s : State) : Result := .next (s.setW imm16)

/-- SETH (rule R72): stored unchecked. -/
def execSeth (imm16 : Dim) (s : State) : Result := .next (s.setH imm16)

/-- PUTB (rule R73). -/
def execPutb (imm8 : Byte) (s : State) : Result := putbIn hw imm8 s

/-- NEWB (rule R74). -/
def execNewb (s : State) : Result := newbIn hw s

/-- CLRI (rule R75). -/
def execClri (s : State) : Result := .next (s.setInq [])

/-- CLRO (rule R76). -/
def execClro (s : State) : Result := .next (s.setOutq [])

/-- CLRE (rule R77). -/
def execClre (s : State) : Result := .next (s.setStatus 0)

/-- SRST (rule R78). -/
def execSrst (s : State) : Result := .next s.resetItems

end Sys2Proof.Machine
end

