-- ==== Sys2Proof/Machine/Operands.lean ====
section
/-! DEFINITION. The implicit operands of the processing commands and the checks on them: derived sizes
(00_scope.md section 5), `dim_ok` (rule R171), buffer counts (rule R175) and buffer lengths (rule R172). Each check
takes what follows it as an argument, so a command's definition reads in the order its rule lists the checks.
The immediates of SETW, SETH and PUTB are used as they stand (rule R52). -/
namespace Sys2Proof.Machine

/-- `P = W*H` (00_scope.md section 5). -/
def pixels (w h : Nat) : Nat := w * h

/-- `RAWLEN = 3*P`. -/
def rawLen (w h : Nat) : Nat := 3 * pixels w h

/-- `CLEN = P div 4`. -/
def chromaLen (w h : Nat) : Nat := pixels w h / 4

/-- `FLEN = P + 2*CLEN` (rule R31, 90_conflicts.md C5). -/
def frameLen (w h : Nat) : Nat := pixels w h + 2 * chromaLen w h

/-- `dim_ok` (00_scope.md section 5, rule R171). -/
def dimOk (w h : Nat) : Bool :=
  decide (0 < w) && decide (0 < h) && (decide (w % 2 = 0) && decide (h % 2 = 0))

/-- DimensionError unless the dimensions are even and positive (rule R171). -/
def checkDims (w h : Nat) (k : Checked) : Checked :=
  if dimOk w h then k else .error .dimension

/-- OperandCountError unless there is exactly one buffer (rule R175). -/
def takeOne (q : Queue) (k : Buffer → Checked) : Checked :=
  match q with
  | [b] => k b
  | _ => .error .operandCount

/-- OperandCountError unless there are exactly two buffers (rule R175). -/
def takeTwo (q : Queue) (k : Buffer → Buffer → Checked) : Checked :=
  match q with
  | [a, b] => k a b
  | _ => .error .operandCount

/-- SizeMismatchError unless the lengths agree exactly (rules R114 and R172). -/
def checkLen (actual expected : Nat) (k : Checked) : Checked :=
  if actual = expected then k else .error .sizeMismatch

/-- SizeMismatchError unless every buffer has the length (rule R151 check 2). -/
def checkAllLen (q : Queue) (expected : Nat) (k : Checked) : Checked :=
  if q.all fun b => decide (b.length = expected) then k else .error .sizeMismatch

end Sys2Proof.Machine
end

