-- ==== Sys2Proof/Machine/DeltaCodec.lean ====
section
/-! DEFINITION. The DeltaCodec (43_delta_codec.md) and its commands DFWD (rule R134) and DINV (rule R135), which do
not read W or H. -/
namespace Sys2Proof.Machine

/-- `delta_fwd`: `(current[i] - previous[i]) mod 256` at every index (rule R130). The rule defines it for buffers of
equal length only; on others this function cuts to the shorter one, which no command reaches (DESIGN CHOICE; log
entry 13). -/
def deltaFwd (previous current : Buffer) : Buffer := List.zipWith (fun p c => c - p) previous current

/-- `delta_inv`: `(previous[i] + delta[i]) mod 256` at every index (rule R131). Buffers of unequal length as for
`deltaFwd` (DESIGN CHOICE; log entry 13). -/
def deltaInv (previous delta : Buffer) : Buffer := List.zipWith (fun p d => p + d) previous delta

/-- The checks and the result of DFWD (rule R134). -/
def dfwdChecked (inq : Queue) : Checked :=
  takeTwo inq fun previous current =>
    checkLen previous.length current.length <| .ok [deltaFwd previous current]

/-- The checks and the result of DINV (rule R135). -/
def dinvChecked (inq : Queue) : Checked :=
  takeTwo inq fun previous delta =>
    checkLen previous.length delta.length <| .ok [deltaInv previous delta]

/-- DFWD in a given configuration. -/
def dfwdIn (cfg : Config) (s : State) : Result := processing cfg (dfwdChecked s.inq) s

/-- DINV in a given configuration. -/
def dinvIn (cfg : Config) (s : State) : Result := processing cfg (dinvChecked s.inq) s

/-- DFWD (rule R134). -/
def execDfwd (s : State) : Result := dfwdIn hw s

/-- DINV (rule R135). -/
def execDinv (s : State) : Result := dinvIn hw s

end Sys2Proof.Machine
end

