-- ==== Sys2Proof/Machine/ColorConverter.lean ====
section
/-! DEFINITION. The ColorConverter (41_color_converter.md): two pure functions of three bytes (rule R90), in the
integer forms of rules R91 and R97, with the store rules R93 and R98. The rational forms of rules R91 to R93 stand
beside them, for claims that the integer forms are exact (rule R92). -/
namespace Sys2Proof.Machine

/-! ### Store rules -/

/-- `trunc8(n/d)`: truncate toward zero, then reduce modulo 256 (rule R93). -/
def trunc8 (n : Int) (d : Nat) : Byte := BitVec.ofInt 8 (n.tdiv d)

/-- `sat8(n/d)`: 0 below 0, 255 above 255, else truncate (rule R98). -/
def sat8 (n : Int) (d : Nat) : Byte :=
  if n < 0 then 0 else if 255 * (d : Int) < n then 255 else BitVec.ofInt 8 (n.tdiv d)

/-! ### Forward (rule R91) -/

/-- `Yn`. -/
def yNum (c : CoefFwd) (r g b : Byte) : Int := c.yr * r.toNat + c.yg * g.toNat + c.yb * b.toNat

/-- `Un`. -/
def uNum (c : CoefFwd) (r g b : Byte) : Int := c.ur * r.toNat + c.ug * g.toNat + c.ub * b.toNat + c.uo

/-- `Vn`; its last coefficient multiplies the blue input (90_conflicts.md C1). -/
def vNum (c : CoefFwd) (r g b : Byte) : Int := c.vr * r.toNat + c.vg * g.toNat + c.vb * b.toNat + c.vo

/-- `rgb_to_yuv8`, the per-pixel truncated triple (rule R95). -/
def rgbToYuv8 (c : CoefFwd) (r g b : Byte) : Byte × Byte × Byte :=
  (trunc8 (yNum c r g b) c.scale, trunc8 (uNum c r g b) c.scale, trunc8 (vNum c r g b) c.scale)

/-! ### Inverse (rule R97) -/

/-- `Rn`. -/
def rNum (c : CoefInv) (y v : Byte) : Int := c.scale * (y.toNat : Int) + c.rv * (v.toNat - c.offset)

/-- `Gn`. -/
def gNum (c : CoefInv) (y u v : Byte) : Int :=
  c.scale * (y.toNat : Int) - c.gu * (u.toNat - c.offset) - c.gv * (v.toNat - c.offset)

/-- `Bn`. -/
def bNum (c : CoefInv) (y u : Byte) : Int := c.scale * (y.toNat : Int) + c.bu * (u.toNat - c.offset)

/-- `yuvToRGB` (rules R96 to R98). -/
def yuvToRgb (c : CoefInv) (y u v : Byte) : Byte × Byte × Byte :=
  (sat8 (rNum c y v) c.scale, sat8 (gNum c y u v) c.scale, sat8 (bNum c y u) c.scale)

/-! ### The rational forms (rules R91 to R93 and R97, 00_scope.md section 5) -/

/-- `tz(q)`, truncation toward zero. -/
def tz (q : Rat) : Int := if 0 ≤ q then q.floor else -(-q).floor

/-- `trunc8(q)` on a rational. -/
def trunc8Rat (q : Rat) : Byte := BitVec.ofInt 8 (tz q)

/-- `sat8(q)` on a rational. -/
def sat8Rat (q : Rat) : Byte := if q < 0 then 0 else if 255 < q then 255 else BitVec.ofInt 8 (tz q)

/-- `rgbToYUV` with the decimal literals of rule R91 as exact rationals. -/
def rgbToYuvRat (r g b : Byte) : Rat × Rat × Rat :=
  (0.299 * r.toNat + 0.587 * g.toNat + 0.114 * b.toNat,
   -0.169 * r.toNat - 0.331 * g.toNat + 0.449 * b.toNat + 128,
   0.499 * r.toNat - 0.418 * g.toNat - 0.0813 * b.toNat + 128)

/-- `yuvToRGB` with the decimal literals of rule R97 as exact rationals. -/
def yuvToRgbRat (y u v : Byte) : Byte × Byte × Byte :=
  (sat8Rat (y.toNat + 1.402 * ((v.toNat : Rat) - 128)),
   sat8Rat (y.toNat - 0.344 * ((u.toNat : Rat) - 128) - 0.714 * ((v.toNat : Rat) - 128)),
   sat8Rat (y.toNat + 1.772 * ((u.toNat : Rat) - 128)))

end Sys2Proof.Machine
end

