-- ==== Sys2Proof/Machine/FrameTranscoder.lean ====
section
/-! DEFINITION. The FrameTranscoder (42_frame_transcoder.md) and its commands XFWD (rule R115) and XINV (rule
R116). The layouts are those of 20_memory.md rules R30 to R32. -/
namespace Sys2Proof.Machine

/-- `b[i]`. The commands call the functions below only after the length checks, and then no index is outside the
buffer (rule R114); what an index outside reads as is never seen by a command (log entry 10). -/
def byteAt (b : Buffer) (i : Nat) : Byte := b.getD i 0

/-- A plane of samples in row-major order (rule R32). -/
def plane (rows cols : Nat) (sample : Nat → Nat → Byte) : Buffer :=
  (List.range rows).flatMap fun i => (List.range cols).map fun j => sample i j

/-- A function of the three bytes of pixel (row, col) of a RawFrame (rule R30). -/
def atPixel (f : Byte → Byte → Byte → Int) (raw : Buffer) (w row col : Nat) : Int :=
  f (byteAt raw ((row * w + col) * 3)) (byteAt raw ((row * w + col) * 3 + 1)) (byteAt raw ((row * w + col) * 3 + 2))

/-- The luma byte of pixel (row, col) (rule R110). -/
def lumaAt (c : CoefFwd) (raw : Buffer) (w row col : Nat) : Byte :=
  trunc8 (atPixel (yNum c) raw w row col) c.scale

/-- The stored mean of a block's four values, given over `scale` (rule R111; the other mode is rule R118). -/
def blockMean (mode : AvgMode) (scale : Nat) (n00 n01 n10 n11 : Int) : Byte :=
  match mode with
  | .meanThenTruncate => trunc8 (n00 + n01 + n10 + n11) (4 * scale)
  | .truncateThenMean =>
    BitVec.ofNat 8 (((trunc8 n00 scale).toNat + (trunc8 n01 scale).toNat
      + (trunc8 n10 scale).toNat + (trunc8 n11 scale).toNat) / 4)

/-- The chroma byte of block (i, j): `f` is `Un` or `Vn` (rule R111). -/
def chromaAt (mode : AvgMode) (scale : Nat) (f : Byte → Byte → Byte → Int) (raw : Buffer) (w i j : Nat) : Byte :=
  blockMean mode scale (atPixel f raw w (2 * i) (2 * j)) (atPixel f raw w (2 * i) (2 * j + 1))
    (atPixel f raw w (2 * i + 1) (2 * j)) (atPixel f raw w (2 * i + 1) (2 * j + 1))

/-- `transcode_fwd` (rule R112): the Y-plane, then the U-plane, then the V-plane. Outside the rule's domain (`dim_ok`
and a buffer of RAWLEN bytes) its value is the model's own and reaches no state (DESIGN CHOICE; log entries 10 and
13). -/
def transcodeFwd (cfg : Config) (raw : Buffer) (w h : Nat) : Buffer :=
  plane h w (lumaAt cfg.coefFwd raw w)
    ++ plane (h / 2) (w / 2) (chromaAt cfg.avgMode cfg.coefFwd.scale (uNum cfg.coefFwd) raw w)
    ++ plane (h / 2) (w / 2) (chromaAt cfg.avgMode cfg.coefFwd.scale (vNum cfg.coefFwd) raw w)

/-- The three bytes of the pixel (row, col) that `transcode_inv` writes (rule R113). -/
def rgbAt (c : CoefInv) (pl : Buffer) (w h row col : Nat) : Buffer :=
  let rgb := yuvToRgb c (byteAt pl (row * w + col))
    (byteAt pl (pixels w h + (row / 2) * (w / 2) + col / 2))
    (byteAt pl (pixels w h + chromaLen w h + (row / 2) * (w / 2) + col / 2))
  [rgb.1, rgb.2.1, rgb.2.2]

/-- `transcode_inv` (rule R113). Outside the rule's domain as for `transcodeFwd` (DESIGN CHOICE; log entries 10 and
13). -/
def transcodeInv (cfg : Config) (pl : Buffer) (w h : Nat) : Buffer :=
  (List.range h).flatMap fun row => (List.range w).flatMap fun col => rgbAt cfg.coefInv pl w h row col

/-! ### Commands -/

/-- The checks and the result of XFWD (rule R115). -/
def xfwdChecked (cfg : Config) (w h : Nat) (inq : Queue) : Checked :=
  checkDims w h <| takeOne inq fun raw =>
    checkLen raw.length (rawLen w h) <| .ok [transcodeFwd cfg raw w h]

/-- The checks and the result of XINV (rule R116). -/
def xinvChecked (cfg : Config) (w h : Nat) (inq : Queue) : Checked :=
  checkDims w h <| takeOne inq fun pl =>
    checkLen pl.length (frameLen w h) <| .ok [transcodeInv cfg pl w h]

/-- XFWD in a given configuration. -/
def xfwdIn (cfg : Config) (s : State) : Result :=
  processing cfg (xfwdChecked cfg s.w.toNat s.h.toNat s.inq) s

/-- XINV in a given configuration. -/
def xinvIn (cfg : Config) (s : State) : Result :=
  processing cfg (xinvChecked cfg s.w.toNat s.h.toNat s.inq) s

/-- XFWD (rule R115). -/
def execXfwd (s : State) : Result := xfwdIn hw s

/-- XINV (rule R116). -/
def execXinv (s : State) : Result := xinvIn hw s

end Sys2Proof.Machine
end

