-- ==== Sys2Proof/Machine/StreamCompressor.lean ====
section
/-! DEFINITION. The StreamCompressor (44_stream_compressor.md), a black box given by the configuration's CODEC, and
its commands CMPR (rule R145) and DCMP (rule R146), which do not read W or H. -/
namespace Sys2Proof.Machine

/-- CorruptStreamError when decompression fails (rules R142 and R173). -/
def decompressed (cfg : Config) (stream : Buffer) (k : Buffer → Checked) : Checked :=
  match cfg.codec.decompress stream with
  | none => .error .corruptStream
  | some x => k x

/-- The check and the result of CMPR (rule R145). -/
def cmprChecked (cfg : Config) (inq : Queue) : Checked :=
  takeOne inq fun x => .ok [cfg.codec.compress x]

/-- The checks and the result of DCMP (rule R146). -/
def dcmpChecked (cfg : Config) (inq : Queue) : Checked :=
  takeOne inq fun stream => decompressed cfg stream fun x => .ok [x]

/-- CMPR in a given configuration. -/
def cmprIn (cfg : Config) (s : State) : Result := processing cfg (cmprChecked cfg s.inq) s

/-- DCMP in a given configuration. -/
def dcmpIn (cfg : Config) (s : State) : Result := processing cfg (dcmpChecked cfg s.inq) s

/-- CMPR (rule R145). -/
def execCmpr (s : State) : Result := cmprIn hw s

/-- DCMP (rule R146). -/
def execDcmp (s : State) : Result := dcmpIn hw s

end Sys2Proof.Machine
end

