-- ==== Sys2Proof/Machine/Decoder.lean ====
section
/-! DEFINITION. The Decoder (46_decoder.md) and its command DEC (rule R161). -/
namespace Sys2Proof.Machine

/-- `s[k*FLEN : (k+1)*FLEN]` for each whole chunk (rule R160 step 2). -/
def chunks (flen : Nat) (s : Buffer) : Queue :=
  (List.range (s.length / flen)).map fun k => (s.drop (k * flen)).take flen

/-- The frames reconstructed after a frame `previous`: each delta is added to the frame reconstructed before it
(rule R160 step 3). -/
def reconstructAfter (previous : Buffer) : Queue → Queue
  | [] => []
  | delta :: rest => deltaInv previous delta :: reconstructAfter (deltaInv previous delta) rest

/-- The reconstructed planar frames: the first chunk is the keyframe (rule R160 step 3). -/
def reconstruct : Queue → Queue
  | [] => []
  | key :: rest => key :: reconstructAfter key rest

/-- `decode_stream` (rule R160). Outside the rule's domain (`dim_ok` and a whole number of chunks) it leaves out a
partial chunk, and gives no frame for a chunk length of 0. DEC reaches neither (DESIGN CHOICE; log entry 13). -/
def decodeStream (cfg : Config) (s : Buffer) (w h : Nat) : Queue :=
  (reconstruct (chunks (frameLen w h) s)).map fun pl => transcodeInv cfg pl w h

/-- CorruptStreamError when a partial chunk would be left over (rule R161 check 4, 90_conflicts.md C2). -/
def checkWholeFrames (length flen : Nat) (k : Checked) : Checked :=
  if length % flen = 0 then k else .error .corruptStream

/-- The checks and the result of DEC (rule R161). -/
def decChecked (cfg : Config) (w h : Nat) (inq : Queue) : Checked :=
  checkDims w h <| takeOne inq fun stream => decompressed cfg stream fun s =>
    checkWholeFrames s.length (frameLen w h) <| .ok (decodeStream cfg s w h)

/-- DEC in a given configuration. -/
def decIn (cfg : Config) (s : State) : Result :=
  processing cfg (decChecked cfg s.w.toNat s.h.toNat s.inq) s

/-- DEC (rule R161). -/
def execDec (s : State) : Result := decIn hw s

end Sys2Proof.Machine
end

