-- ==== Sys2Proof/Machine/Encoder.lean ====
section
/-! DEFINITION. The Encoder (45_encoder.md) and its command ENC (rule R151). -/
namespace Sys2Proof.Machine

/-- The delta frames after a frame `previous`, each against its immediate predecessor (rule R150 steps 3 and 4). -/
def deltaFrames (previous : Buffer) : Queue → Buffer
  | [] => []
  | current :: rest => deltaFwd previous current ++ deltaFrames current rest

/-- The uncompressed stream: the keyframe as it is, then every delta frame (rules R36 and R150). -/
def streamOf : Queue → Buffer
  | [] => []
  | key :: rest => key ++ deltaFrames key rest

/-- `encode` (rule R150): transcode each frame, build the stream, compress it. Outside the rule's domain (`dim_ok` and
frames of `3*W*H` bytes) its value is the model's own and reaches no state (DESIGN CHOICE; log entry 13). -/
def encodeFrames (cfg : Config) (frames : Queue) (w h : Nat) : Buffer :=
  cfg.codec.compress (streamOf (frames.map fun raw => transcodeFwd cfg raw w h))

/-- The checks and the result of ENC (rule R151): any number of frames, also none (rule R153). -/
def encChecked (cfg : Config) (w h : Nat) (inq : Queue) : Checked :=
  checkDims w h <| checkAllLen inq (rawLen w h) <| .ok [encodeFrames cfg inq w h]

/-- ENC in a given configuration. -/
def encIn (cfg : Config) (s : State) : Result :=
  processing cfg (encChecked cfg s.w.toNat s.h.toNat s.inq) s

/-- ENC (rule R151). -/
def execEnc (s : State) : Result := encIn hw s

end Sys2Proof.Machine
end

