-- ==== Sys2Proof/Machine/Dispatch.lean ====
section
/-! DEFINITION. One arm per command (rule R53), each a direct call of its meaning. -/
namespace Sys2Proof.Machine

def exec (i : Instr) (s : State) : Host.Outcome State Fault Refusal :=
  match i with
  | .nop => Sys2Proof.Machine.execNop s
  | .setw imm16 => Sys2Proof.Machine.execSetw imm16 s
  | .seth imm16 => Sys2Proof.Machine.execSeth imm16 s
  | .putb imm8 => Sys2Proof.Machine.execPutb imm8 s
  | .newb => Sys2Proof.Machine.execNewb s
  | .clri => Sys2Proof.Machine.execClri s
  | .clro => Sys2Proof.Machine.execClro s
  | .clre => Sys2Proof.Machine.execClre s
  | .srst => Sys2Proof.Machine.execSrst s
  | .xfwd => Sys2Proof.Machine.execXfwd s
  | .xinv => Sys2Proof.Machine.execXinv s
  | .dfwd => Sys2Proof.Machine.execDfwd s
  | .dinv => Sys2Proof.Machine.execDinv s
  | .cmpr => Sys2Proof.Machine.execCmpr s
  | .dcmp => Sys2Proof.Machine.execDcmp s
  | .enc => Sys2Proof.Machine.execEnc s
  | .dec => Sys2Proof.Machine.execDec s

end Sys2Proof.Machine
end

