-- ==== Sys2Proof/Machine/Step.lean ====
section
/-! DEFINITION. One atomic step (rules R4, R38, R44 and R208): the host's next move is taken whole. -/
namespace Sys2Proof.Machine

/-- The position moves on by one (rule R11). A word that decodes to a command runs it; an ILLEGAL word has the
entry of rule R177; the reset input leaves the state of rule R200. After the last move there is no step. -/
def step (s : State) : Host.Outcome State Fault Refusal :=
  match s.nextMove with
  | none => .refused .noHostMove
  | some .reset => .next s.advance.resetItems
  | some (.word w) =>
    match decode w with
    | .command i => exec i s.advance
    | .illegal _ => .next s.advance.illegalWord

/-- `s` with the word stored as the host's next move: the list is kept up to the position (filled up with NOP words
if it is shorter) and after it. -/
def State.withFetchWord (s : State) (nbits w : Nat) : State :=
  { s with moves := s.moves.take s.pos ++ List.replicate (s.pos - s.moves.length) (.word 0)
                      ++ .word (tableWord nbits w) :: s.moves.drop (s.pos + 1) }

end Sys2Proof.Machine
end

