-- ==== Sys2Proof/Machine/Assembler.lean ====
section
/-! DEFINITION. The assembly syntax (30_encoding.md rule R60) and the pseudo-instructions (rule R61). The hardware
sees the words only. What rule R60 leaves open of the text (blanks, digit case) is log entry 9. -/
namespace Sys2Proof.Machine

/-- One source line, with its operands as the numbers written: a command of rule R53 or a pseudo-instruction of
rule R61. -/
inductive AsmItem where
  | nop
  | setw (n : Nat)
  | seth (n : Nat)
  | putb (n : Nat)
  | newb
  | clri
  | clro
  | clre
  | srst
  | xfwd
  | xinv
  | dfwd
  | dinv
  | cmpr
  | dcmp
  | enc
  | dec
  | buf (bs : List Nat)
  | dim (w h : Nat)
  | rep (n b : Nat)
  deriving DecidableEq, Repr

/-- Why a line does not assemble. -/
inductive AsmError where
  /-- No command or pseudo-instruction with that many operands. -/
  | unknownLine
  /-- An operand is no decimal or `0x` number. -/
  | badNumber
  /-- "a larger operand is an assembly error, it is never truncated" (rule R60). -/
  | operandTooLarge
  deriving DecidableEq, Repr

/-- Every operand fits its immediate: 0 to 65535 for a dimension, 0 to 255 for a byte (rule R60). -/
def AsmItem.wellFormed : AsmItem → Bool
  | .setw n => decide (n ≤ 65535)
  | .seth n => decide (n ≤ 65535)
  | .putb n => decide (n ≤ 255)
  | .buf bs => bs.all fun b => decide (b ≤ 255)
  | .dim w h => decide (w ≤ 65535) && decide (h ≤ 65535)
  | .rep _ b => decide (b ≤ 255)
  | _ => true

/-- The commands a line stands for (rule R61). -/
def AsmItem.expand : AsmItem → List Instr
  | .nop => [.nop]
  | .setw n => [.setw (BitVec.ofNat 16 n)]
  | .seth n => [.seth (BitVec.ofNat 16 n)]
  | .putb n => [.putb (BitVec.ofNat 8 n)]
  | .newb => [.newb]
  | .clri => [.clri]
  | .clro => [.clro]
  | .clre => [.clre]
  | .srst => [.srst]
  | .xfwd => [.xfwd]
  | .xinv => [.xinv]
  | .dfwd => [.dfwd]
  | .dinv => [.dinv]
  | .cmpr => [.cmpr]
  | .dcmp => [.dcmp]
  | .enc => [.enc]
  | .dec => [.dec]
  | .buf bs => .newb :: bs.map fun b => .putb (BitVec.ofNat 8 b)
  | .dim w h => [.setw (BitVec.ofNat 16 w), .seth (BitVec.ofNat 16 h)]
  | .rep n b => List.replicate n (.putb (BitVec.ofNat 8 b))

/-- The words of a line, unless an operand is too large. -/
def assembleItem (it : AsmItem) : Except AsmError (List Word) :=
  if it.wellFormed then .ok (it.expand.map encode) else .error .operandTooLarge

/-! ### Reading the text of a line -/

/-- Blanks between the words of a line (DESIGN CHOICE; log entry 9). -/
def isBlank (c : Char) : Bool := c == ' ' || c == '\t' || c == '\r'

/-- "A `#` starts a comment to the end of the line" (rule R60). -/
def stripComment (line : List Char) : List Char := line.takeWhile fun c => c != '#'

/-- The words of a line; `acc` holds the word being read. -/
def splitWords (acc : List Char) : List Char → List (List Char)
  | [] => if acc.isEmpty then [] else [acc]
  | c :: cs =>
    if isBlank c then (if acc.isEmpty then splitWords [] cs else acc :: splitWords [] cs)
    else splitWords (acc ++ [c]) cs

/-- The value of a digit in base 16, or none. -/
def digitValue (c : Char) : Option Nat :=
  if '0' ≤ c ∧ c ≤ '9' then some (c.toNat - 48)
  else if 'a' ≤ c ∧ c ≤ 'f' then some (c.toNat - 87)
  else if 'A' ≤ c ∧ c ≤ 'F' then some (c.toNat - 55)
  else none

/-- The number the digits stand for in a base, most significant first. -/
def digitsValue (base : Nat) : Nat → List Char → Option Nat
  | acc, [] => some acc
  | acc, c :: cs =>
    match digitValue c with
    | some d => if d < base then digitsValue base (acc * base + d) cs else none
    | none => none

/-- "a non-negative integer written in decimal (`255`) or hexadecimal with `0x` prefix (`0xFF`)" (rule R60). -/
def numberValue : List Char → Option Nat
  | '0' :: 'x' :: d :: ds => digitsValue 16 0 (d :: ds)
  | d :: ds => digitsValue 10 0 (d :: ds)
  | [] => none

/-- The numbers of a list of words, or none when one of them is no number. -/
def numberValues : List (List Char) → Option (List Nat)
  | [] => some []
  | x :: xs =>
    match numberValue x, numberValues xs with
    | some n, some ns => some (n :: ns)
    | _, _ => none

/-- The lines without operands (rule R60). -/
def bareItems : List (List Char × AsmItem) :=
  [("NOP".toList, .nop), ("NEWB".toList, .newb), ("CLRI".toList, .clri), ("CLRO".toList, .clro),
   ("CLRE".toList, .clre), ("SRST".toList, .srst), ("XFWD".toList, .xfwd), ("XINV".toList, .xinv),
   ("DFWD".toList, .dfwd), ("DINV".toList, .dinv), ("CMPR".toList, .cmpr), ("DCMP".toList, .dcmp),
   ("ENC".toList, .enc), ("DEC".toList, .dec)]

/-- The line of a name and its operands (rules R60 and R61). -/
def itemOf (name : List Char) (operands : List Nat) : Option AsmItem :=
  if name = ".buf".toList then some (.buf operands)
  else
    match operands with
    | [] => bareItems.lookup name
    | [n] =>
      if name = "SETW".toList then some (.setw n)
      else if name = "SETH".toList then some (.seth n)
      else if name = "PUTB".toList then some (.putb n)
      else none
    | [a, b] =>
      if name = ".dim".toList then some (.dim a b)
      else if name = ".rep".toList then some (.rep a b)
      else none
    | _ => none

/-- The words of one line of text; a blank line has none (rule R60). -/
def assembleLine (line : List Char) : Except AsmError (List Word) :=
  match splitWords [] (stripComment line) with
  | [] => .ok []
  | name :: operands =>
    match numberValues operands with
    | none => .error .badNumber
    | some ns =>
      match itemOf name ns with
      | none => .error .unknownLine
      | some it => assembleItem it

/-- The words of a source file, line by line; the first line in error is the result's error. -/
def assembleLines : List (List Char) → Except AsmError (List Word)
  | [] => .ok []
  | l :: ls =>
    match assembleLine l, assembleLines ls with
    | .ok ws, .ok rest => .ok (ws ++ rest)
    | .error e, _ => .error e
    | .ok _, .error e => .error e

end Sys2Proof.Machine
end

