-- ==== Sys2Proof/Machine/HostPort.lean ====
section
/-! DEFINITION. The host's read ports (20_memory.md rules R37, R39 and R40). A read is a function of the state: it
cannot change it, may be repeated, and is no step. Nothing reads INQ for the host (rule R41). -/
namespace Sys2Proof.Machine

/-- A register read by its number (rules R37 and R39): W and H zero-extended, STATUS as it stands. -/
def readReg (n : Nat) (s : State) : Except Refusal Word :=
  match n with
  | 0 => .ok (s.w.setWidth 32)
  | 1 => .ok (s.h.setWidth 32)
  | 2 => .ok s.status
  | n => .error (.noSuchRegister n)

/-- `|OUTQ|`, always defined (rule R40). -/
def outqCount (s : State) : Nat := s.outq.length

/-- `|OUTQ[k]|` for `k < |OUTQ|` (rule R40). -/
def outqLength (k : Nat) (s : State) : Except Refusal Nat :=
  match s.outq[k]? with
  | some b => .ok b.length
  | none => .error .outqReadOutOfRange

/-- `MemRead(OUTQ, k, i)` (rule R40; outside the result it is refused, U9). -/
def outqByte (k i : Nat) (s : State) : Except Refusal Byte :=
  match s.outq[k]? with
  | some b =>
    match b[i]? with
    | some x => .ok x
    | none => .error .outqReadOutOfRange
  | none => .error .outqReadOutOfRange

/-- What the host can observe after a run (rule R208): W, H, STATUS, OUTQ. -/
def observe (s : State) : Dim × Dim × Word × Queue := (s.w, s.h, s.status, s.outq)

end Sys2Proof.Machine
end

