-- ==== Sys2Proof/Safety.lean ====
section
/-! DEFINITION. The words claims are stated in: the kinds of commands, what an error and a success leave behind,
read off STATUS bit by bit, the layouts of the pictures index by index with the numbers of the spec written out,
and the invariants of the machine. Nothing here is used by the machine. -/
namespace Sys2Proof.Safety

open Sys2Proof.Machine

/-! ### Kinds of commands (00_scope.md section 6) -/

/-- A processing command: it consumes INQ and produces OUTQ. -/
def isProcessing : Instr → Bool
  | .xfwd | .xinv | .dfwd | .dinv | .cmpr | .dcmp | .enc | .dec => true
  | .nop | .setw _ | .seth _ | .putb _ | .newb | .clri | .clro | .clre | .srst => false

/-- A command that reads W and H (rule R171). -/
def usesDims : Instr → Bool
  | .xfwd | .xinv | .enc | .dec => true
  | .nop | .setw _ | .seth _ | .putb _ | .newb | .clri | .clro | .clre | .srst => false
  | .dfwd | .dinv | .cmpr | .dcmp => false

/-- `dim_ok` on the registers of a state (rule R171). -/
abbrev DimOk (s : State) : Prop :=
  0 < s.w.toNat ∧ 0 < s.h.toNat ∧ s.w.toNat % 2 = 0 ∧ s.h.toNat % 2 = 0

/-- `3*W*H`, the length of a RawFrame (rule R30). -/
abbrev rawSize (s : State) : Nat := 3 * s.w.toNat * s.h.toNat

/-- `3*W*H div 2`, the length of a PlanarYUVFrame (rule R31). -/
abbrev planarSize (s : State) : Nat := 3 * s.w.toNat * s.h.toNat / 2

/-! ### Outcomes -/

/-- `t` is `s` after error entry with code `c` (rule R176): ERR and one sticky bit written, both queues empty,
every other STATUS bit, W and H as they were. -/
def Raised (c : Nat) (s t : State) : Prop :=
  t.status.toNat % 16 = c ∧
  (∀ n, 4 ≤ n → t.status.getLsbD n = (s.status.getLsbD n || decide (n = 7 + c))) ∧
  t.inq = [] ∧ t.outq = [] ∧ t.w = s.w ∧ t.h = s.h ∧ t.moves = s.moves ∧ t.pos = s.pos

/-- `t` is `s` after a processing command succeeded with the result `res` (rule R80): ERR is 0, every other STATUS
bit, W and H as they were. -/
def Succeeded (res : Queue) (s t : State) : Prop :=
  t.outq = res ∧ t.inq = [] ∧ t.status.toNat % 16 = 0 ∧
  (∀ n, 4 ≤ n → t.status.getLsbD n = s.status.getLsbD n) ∧
  t.w = s.w ∧ t.h = s.h ∧ t.moves = s.moves ∧ t.pos = s.pos

/-- The command ends with error entry, code `c`. -/
def EndsIn (i : Instr) (c : Nat) (s : State) : Prop := ∃ t, exec i s = .next t ∧ Raised c s t

/-- The command succeeds with the result `res`. -/
def Yields (i : Instr) (res : Queue) (s : State) : Prop := ∃ t, exec i s = .next t ∧ Succeeded res s t

/-! ### Pictures, index by index -/

/-- The three samples of pixel (row, col) of a RawFrame of width `w` (rule R30). -/
def HasPixel (raw : Buffer) (w row col r g b : Nat) : Prop :=
  (∃ x, raw[(row * w + col) * 3]? = some x ∧ x.toNat = r) ∧
  (∃ x, raw[(row * w + col) * 3 + 1]? = some x ∧ x.toNat = g) ∧
  (∃ x, raw[(row * w + col) * 3 + 2]? = some x ∧ x.toNat = b)

/-- The byte at index `i` is `v`. -/
def HasByte (buf : Buffer) (i v : Nat) : Prop := ∃ x, buf[i]? = some x ∧ x.toNat = v

/-- `pl` is the PlanarYUVFrame of the RawFrame `raw` (rules R110 and R111): every luma byte and every chroma byte
at its place, with the numbers of rule R91 written out over 10000. -/
def IsPlanarOf (w h : Nat) (raw pl : Buffer) : Prop :=
  pl.length = 3 * w * h / 2 ∧
  (∀ row col r g b, row < h → col < w → HasPixel raw w row col r g b →
    HasByte pl (row * w + col) ((2990 * r + 5870 * g + 1140 * b) / 10000)) ∧
  (∀ i j r0 g0 b0 r1 g1 b1 r2 g2 b2 r3 g3 b3, i < h / 2 → j < w / 2 →
    HasPixel raw w (2 * i) (2 * j) r0 g0 b0 → HasPixel raw w (2 * i) (2 * j + 1) r1 g1 b1 →
    HasPixel raw w (2 * i + 1) (2 * j) r2 g2 b2 → HasPixel raw w (2 * i + 1) (2 * j + 1) r3 g3 b3 →
    HasByte pl (w * h + i * (w / 2) + j)
      ((4490 * (b0 + b1 + b2 + b3) + 4 * 1280000 - 1690 * (r0 + r1 + r2 + r3) - 3310 * (g0 + g1 + g2 + g3))
        / 40000) ∧
    HasByte pl (w * h + w * h / 4 + i * (w / 2) + j)
      ((4990 * (r0 + r1 + r2 + r3) + 4 * 1280000 - 4180 * (g0 + g1 + g2 + g3) - 813 * (b0 + b1 + b2 + b3))
        / 40000))

/-- The clamped store of rule R98 on thousandths: 0 below 0, 255 above 255, else the integer part. -/
def clampThousandths (n : Int) : Nat := (min (max n 0) 255000).toNat / 1000

/-- `raw` is the RawFrame of the PlanarYUVFrame `pl` (rule R113): every pixel from its own luma and its block's
chroma, with the numbers of rule R97 written out over 1000. -/
def IsRawOf (w h : Nat) (pl raw : Buffer) : Prop :=
  raw.length = 3 * w * h ∧
  ∀ row col y u v : Nat, row < h → col < w →
    HasByte pl (row * w + col) y →
    HasByte pl (w * h + row / 2 * (w / 2) + col / 2) u →
    HasByte pl (w * h + w * h / 4 + row / 2 * (w / 2) + col / 2) v →
    HasPixel raw w row col
      (clampThousandths (1000 * y + 1402 * ((v : Int) - 128)))
      (clampThousandths (1000 * y - 344 * ((u : Int) - 128) - 714 * ((v : Int) - 128)))
      (clampThousandths (1000 * y + 1772 * ((u : Int) - 128)))

/-- `d` is the byte-wise difference of two buffers modulo 256 (rules R35 and R130). -/
def IsDeltaOf (previous current d : Buffer) : Prop :=
  d.length = current.length ∧
  ∀ (k p c : Nat), HasByte previous k p → HasByte current k c → HasByte d k ((c + 256 - p) % 256)

/-- `c` is the byte-wise sum of two buffers modulo 256 (rule R131). -/
def IsSumOf (previous d c : Buffer) : Prop :=
  c.length = d.length ∧
  ∀ (k p x : Nat), HasByte previous k p → HasByte d k x → HasByte c k ((p + x) % 256)

/-- `b[i : j]` (00_scope.md section 5). -/
def slice (b : Buffer) (i j : Nat) : Buffer := (b.take j).drop i

/-! ### Invariants -/

/-- STATUS is one the hardware can hold (rules R14 and R15): its reserved bits are 0, ERR is at most 5, and an error
that ERR shows has its sticky flag set. -/
def StatusInv (s : State) : Prop :=
  (∀ n, (4 ≤ n ∧ n < 8) ∨ 13 ≤ n → s.status.getLsbD n = false) ∧
  s.status.toNat % 16 ≤ 5 ∧
  (s.status.toNat % 16 ≠ 0 → s.status.getLsbD (7 + s.status.toNat % 16) = true)

/-- While ERR shows an error of a processing command, OUTQ is empty (rules R17 and R176): "no partial output". -/
def NoStaleOutput (s : State) : Prop :=
  s.status.toNat % 16 ≠ 0 → s.status.toNat % 16 ≠ 4 → s.outq = []

/-- The invariant of every step. -/
def Inv (s : State) : Prop := StatusInv s ∧ NoStaleOutput s

/-! ### Runs over a list of commands -/

/-- `s` with the host about to issue these command words and nothing else (rule R208). -/
def load (words : List Word) (s : State) : State := { s with moves := words.map HostMove.word, pos := 0 }

/-- `n` steps, stopping at the first fault or refusal (rule R208). -/
def runSteps : Nat → State → Result
  | 0, s => .next s
  | n + 1, s =>
    match step s with
    | .next t => runSteps n t
    | .fault r => .fault r
    | .refused r => .refused r

/-- The run of rule R208: as many steps as there are words. -/
def runWords (words : List Word) (s : State) : Result := runSteps words.length (load words s)

end Sys2Proof.Safety
end

