-- ==== Sys2Proof/Certificates/Slice0/Obligations.lean ====
section
/-! DEFINITION. The statements for the provers. Each docstring names the rules of spec/ it formalises; the words
Raised, EndsIn, Succeeded, Yields, IsPlanarOf, IsRawOf, IsDeltaOf, IsSumOf, Inv and runWords are those of
Sys2Proof/Safety.lean. -/

open Sys2Proof Sys2Proof.Machine Sys2Proof.Safety

/-! ### Encoding -/

/-- Rules R51, R53 and R56: the word of a command decodes to that command with its operand, as a word and as bytes
on a byte channel. -/
def Obligations.EncodedCommandDecodesToItself : Prop :=
  ∀ (i : Instr) (rest : List Byte),
    decode (encode i) = .command i ∧ decodeBytes (bytesOfWord (encode i) ++ rest) = .command i rest

/-- Rules R53 and R55: a command has one word only, so no bit of a command's word is ignored. -/
def Obligations.CommandHasOnlyOneWord : Prop :=
  ∀ (w : Word) (i : Instr), decode w = .command i → encode i = w

/-- Rule R53: the decoder of rule R56 and the match and mask columns of the table of seventeen rows accept the same
words as the same commands. -/
def Obligations.WordIsCommandWhenItsRowCovers : Prop :=
  opcodeRows.length = 17 ∧
  (∀ (w : Word) (i : Instr), decode w = .command i →
    ∃ row, opcodeRows[i.rowIndex]? = some row ∧ row.covers w = true ∧ row.op.toNat = w.toNat / 2 ^ 24) ∧
  (∀ (w : Word) (k : Nat) (row : OpcodeRow), opcodeRows[k]? = some row → row.covers w = true →
    ∃ i, decode w = .command i ∧ i.rowIndex = k)

/-- Rule R54: the reserved opcodes, and only these words, are illegal for their opcode, whatever `arg` is. -/
def Obligations.ReservedOpcodesAreIllegal : Prop :=
  ∀ (w : Word) (op : Nat), op = w.toNat / 2 ^ 24 →
    (((0x08 ≤ op ∧ op ≤ 0x0E) ∨ (0x12 ≤ op ∧ op ≤ 0x1F) ∨ (0x22 ≤ op ∧ op ≤ 0x2F) ∨
        (0x32 ≤ op ∧ op ≤ 0x3F) ∨ (0x42 ≤ op ∧ op ≤ 0xFF)) ↔
      decode w = .illegal .reservedOpcode)

/-- Rule R55: in a known opcode the must-be-zero bits of its format are checked, and nothing else is. -/
def Obligations.MustBeZeroBitsAreChecked : Prop :=
  ∀ (w : Word) (op arg : Nat), op = w.toNat / 2 ^ 24 → arg = w.toNat % 2 ^ 24 →
    (op ∈ [0x00, 0x04, 0x05, 0x06, 0x07, 0x0F, 0x10, 0x11, 0x20, 0x21, 0x30, 0x31, 0x40, 0x41] →
      (arg ≠ 0 ↔ decode w = .illegal .mustBeZero)) ∧
    (op ∈ [0x01, 0x02] → (arg / 2 ^ 16 ≠ 0 ↔ decode w = .illegal .mustBeZero)) ∧
    (op = 0x03 → (arg / 2 ^ 8 ≠ 0 ↔ decode w = .illegal .mustBeZero))

/-- Rules R53 to R55 on words written out from the tables (95_test_vectors.md V10). -/
def Obligations.SampleWordsDecode : Prop :=
  decode 0x00000000 = .command .nop ∧ decode 0x01000004 = .command (.setw 4) ∧
  decode 0x0200FFFF = .command (.seth 0xFFFF) ∧ decode 0x030000FF = .command (.putb 0xFF) ∧
  decode 0x11000000 = .command .xinv ∧ decode 0x20000000 = .command .dfwd ∧
  decode 0x31000000 = .command .dcmp ∧ decode 0x40000000 = .command .enc ∧ decode 0x41000000 = .command .dec ∧
  decode 0x00000001 = .illegal .mustBeZero ∧ decode 0x01010004 = .illegal .mustBeZero ∧
  decode 0x03000100 = .illegal .mustBeZero ∧ decode 0x42000000 = .illegal .reservedOpcode

/-- Rule R59: on a byte channel a word is four bytes, the least significant first. -/
def Obligations.WordsAreLittleEndianOnAByteChannel : Prop :=
  bytesOfWord 0x01000004 = [0x04, 0x00, 0x00, 0x01] ∧
  ∀ (w : Word) (rest : List Byte),
    (bytesOfWord w).map BitVec.toNat =
      [w.toNat % 256, w.toNat / 2 ^ 8 % 256, w.toNat / 2 ^ 16 % 256, w.toNat / 2 ^ 24] ∧
    (∀ i, decodeBytes (bytesOfWord w ++ rest) = .command i rest ↔ decode w = .command i)

/-- Rule R57: no word but NOP's is a no-op. For every other word there is a state of the block that executing it
changes. -/
def Obligations.OnlyNopIsANoOp : Prop :=
  ∀ w : Word, w ≠ 0 →
    ∃ s t, step (load [w] s) = .next t ∧ ¬(t.w = s.w ∧ t.h = s.h ∧ t.status = s.status ∧ t.inq = s.inq ∧ t.outq = s.outq)

/-! ### The step -/

/-- Rules R4, R11 and R38: a step runs the command the next word decodes to; the only thing added around it is that
the position moves on by one. -/
def Obligations.StepRunsTheDecodedCommand : Prop :=
  ∀ (s : State) (w : Word) (i : Instr), s.moves[s.pos]? = some (.word w) → decode w = .command i →
    step s = exec i { s with pos := s.pos + 1 }

/-- Rule R177: an ILLEGAL word sets ERR to 4 and F_ILL, and changes nothing else; the next word follows. -/
def Obligations.IllegalWordWritesOnlyStatus : Prop :=
  ∀ (s : State) (w : Word) (why : Illegal), s.moves[s.pos]? = some (.word w) → decode w = .illegal why →
    ∃ t, step s = .next t ∧ t.status.toNat % 16 = 4 ∧
      (∀ n, 4 ≤ n → t.status.getLsbD n = (s.status.getLsbD n || decide (n = 11))) ∧
      t.inq = s.inq ∧ t.outq = s.outq ∧ t.w = s.w ∧ t.h = s.h ∧ t.moves = s.moves ∧ t.pos = s.pos + 1

/-- Rules R200 and R20: the reset input leaves every item at its reset value, from any state. That the host's list
goes on after it is the model's choice (log entry 3). -/
def Obligations.ResetInputLeavesTheResetState : Prop :=
  ∀ s : State, s.moves[s.pos]? = some .reset →
    step s = .next { w := 0, h := 0, status := 0, inq := [], outq := [], moves := s.moves, pos := s.pos + 1 }

/-- Rule R208, and the model's choice of log entry 4: after the last move there is no step. -/
def Obligations.NoStepAfterTheLastMove : Prop :=
  ∀ s : State, s.moves.length ≤ s.pos → step s = .refused .noHostMove

/-- Rule R208: every word is a step in every state, so a run over a list of words is never stuck; it ends after
the last word, and the position has advanced by one for each. -/
def Obligations.RunsAreNeverStuck : Prop :=
  ∀ (words : List Word) (s : State),
    ∃ t, runWords words s = .next t ∧ t.pos = words.length ∧ t.moves = words.map HostMove.word

/-! ### Control commands -/

/-- Rule R70. -/
def Obligations.NopChangesNothing : Prop :=
  encode .nop = 0x00000000#32 ∧
  (∀ w : Word, w.toNat / 2 ^ 24 = 0 → w.toNat % 2 ^ 24 ≠ 0 → decode w = .illegal .mustBeZero) ∧
  ∀ s : State, exec .nop s = .next s

/-- Rules R71 and R72: any value is stored unchecked, and nothing else changes. -/
def Obligations.SetwAndSethStoreUnchecked : Prop :=
  ∀ (v : BitVec 16) (s : State),
    (encode (.setw v)).toNat = 0x01000000 + v.toNat ∧ exec (.setw v) s = .next { s with w := v } ∧
    (encode (.seth v)).toNat = 0x02000000 + v.toNat ∧ exec (.seth v) s = .next { s with h := v }

/-- Rule R73: PUTB appends to the last buffer, opens the first one itself, never starts a second one, and changes
nothing but INQ. -/
def Obligations.PutbAppendsToTheLastBuffer : Prop :=
  ∀ (b : BitVec 8) (s : State),
    (encode (.putb b)).toNat = 0x03000000 + b.toNat ∧
    (s.inq = [] → exec (.putb b) s = .next { s with inq := [[b]] }) ∧
    (∀ q buf, s.inq = q ++ [buf] → exec (.putb b) s = .next { s with inq := q ++ [buf ++ [b]] })

/-- Rule R74: NEWB adds one empty buffer at the tail, also to the empty queue and after an empty buffer. -/
def Obligations.NewbAddsAnEmptyBuffer : Prop :=
  encode .newb = 0x04000000#32 ∧ ∀ s : State, exec .newb s = .next { s with inq := s.inq ++ [[]] }

/-- Rules R75, R76 and R77: each clear command empties its own item and nothing else. -/
def Obligations.ClearCommandsClearOneItem : Prop :=
  encode .clri = 0x05000000#32 ∧ encode .clro = 0x06000000#32 ∧ encode .clre = 0x07000000#32 ∧
  ∀ s : State,
    exec .clri s = .next { s with inq := [] } ∧
    exec .clro s = .next { s with outq := [] } ∧
    exec .clre s = .next { s with status := 0 }

/-- Rule R78: SRST brings the five items to their reset values, from any state. -/
def Obligations.SrstResetsEveryItem : Prop :=
  encode .srst = 0x0F000000#32 ∧
  ∀ s : State, exec .srst s =
    .next { w := 0, h := 0, status := 0, inq := [], outq := [], moves := s.moves, pos := s.pos }

/-- Rules R15 (e) and R81: a control command always completes, raises nothing, and what it writes depends on INQ
and its operand alone, not on W, H, STATUS or OUTQ. -/
def Obligations.ControlCommandsReadOnlyInq : Prop :=
  ∀ (i : Instr) (s s' : State), isProcessing i = false → s.inq = s'.inq →
    ∃ t t', exec i s = .next t ∧ exec i s' = .next t' ∧ t.inq = t'.inq ∧
      (t.status = s.status ∧ t'.status = s'.status ∨ t.status = 0 ∧ t'.status = 0) ∧
      (t.w = s.w ∧ t'.w = s'.w ∨ t.w = t'.w) ∧ (t.h = s.h ∧ t'.h = s'.h ∨ t.h = t'.h) ∧
      (t.outq = s.outq ∧ t'.outq = s'.outq ∨ t.outq = [] ∧ t'.outq = [])

/-! ### Processing commands -/

/-- Rule R115 with the frame of rule R80, the error entry of rule R176 and the buffer of rules R110 and R111. -/
def Obligations.XfwdOutcomes : Prop :=
  encode .xfwd = 0x10000000#32 ∧
  ∀ s : State,
    (¬DimOk s → EndsIn .xfwd 1 s) ∧
    (DimOk s → s.inq.length ≠ 1 → EndsIn .xfwd 5 s) ∧
    (∀ raw, DimOk s → s.inq = [raw] → raw.length ≠ rawSize s → EndsIn .xfwd 2 s) ∧
    (∀ raw, DimOk s → s.inq = [raw] → raw.length = rawSize s →
      ∃ pl, IsPlanarOf s.w.toNat s.h.toNat raw pl ∧ Yields .xfwd [pl] s)

/-- Rule R116 with the frame of rule R80, the error entry of rule R176 and the buffer of rule R113. -/
def Obligations.XinvOutcomes : Prop :=
  encode .xinv = 0x11000000#32 ∧
  ∀ s : State,
    (¬DimOk s → EndsIn .xinv 1 s) ∧
    (DimOk s → s.inq.length ≠ 1 → EndsIn .xinv 5 s) ∧
    (∀ pl, DimOk s → s.inq = [pl] → pl.length ≠ planarSize s → EndsIn .xinv 2 s) ∧
    (∀ pl, DimOk s → s.inq = [pl] → pl.length = planarSize s →
      ∃ raw, IsRawOf s.w.toNat s.h.toNat pl raw ∧ Yields .xinv [raw] s)

/-- Rules R130 and R134: DFWD, whatever W and H hold. -/
def Obligations.DfwdOutcomes : Prop :=
  encode .dfwd = 0x20000000#32 ∧
  ∀ s : State,
    (s.inq.length ≠ 2 → EndsIn .dfwd 5 s) ∧
    (∀ previous current, s.inq = [previous, current] → previous.length ≠ current.length → EndsIn .dfwd 2 s) ∧
    (∀ previous current, s.inq = [previous, current] → previous.length = current.length →
      ∃ d, IsDeltaOf previous current d ∧ Yields .dfwd [d] s)

/-- Rules R131 and R135: DINV, whatever W and H hold. -/
def Obligations.DinvOutcomes : Prop :=
  encode .dinv = 0x21000000#32 ∧
  ∀ s : State,
    (s.inq.length ≠ 2 → EndsIn .dinv 5 s) ∧
    (∀ previous d, s.inq = [previous, d] → previous.length ≠ d.length → EndsIn .dinv 2 s) ∧
    (∀ previous d, s.inq = [previous, d] → previous.length = d.length →
      ∃ current, IsSumOf previous d current ∧ Yields .dinv [current] s)

/-- Rule R145: CMPR, for the hardware's CODEC whatever it is. -/
def Obligations.CmprOutcomes : Prop :=
  encode .cmpr = 0x30000000#32 ∧
  ∀ s : State,
    (s.inq.length ≠ 1 → EndsIn .cmpr 5 s) ∧
    (∀ x, s.inq = [x] → Yields .cmpr [hw.codec.compress x] s)

/-- Rule R146: DCMP, for the hardware's CODEC whatever it is; what CMPR made is always accepted. -/
def Obligations.DcmpOutcomes : Prop :=
  encode .dcmp = 0x31000000#32 ∧
  ∀ s : State,
    (s.inq.length ≠ 1 → EndsIn .dcmp 5 s) ∧
    (∀ c, s.inq = [c] →
      match hw.codec.decompress c with
      | none => EndsIn .dcmp 3 s
      | some x => Yields .dcmp [x] s) ∧
    (∀ x, s.inq = [hw.codec.compress x] → Yields .dcmp [x] s)

/-- Rules R36, R150 and R151: ENC. On success the one buffer is the compression of a stream made of the planar
keyframe and then, for every later frame, its difference from the planar frame before it. -/
def Obligations.EncOutcomes : Prop :=
  encode .enc = 0x40000000#32 ∧
  ∀ s : State,
    (¬DimOk s → EndsIn .enc 1 s) ∧
    (∀ raw, DimOk s → raw ∈ s.inq → raw.length ≠ rawSize s → EndsIn .enc 2 s) ∧
    (DimOk s → (∀ raw ∈ s.inq, raw.length = rawSize s) →
      ∃ (frames : Queue) (stream : Buffer),
        frames.length = s.inq.length ∧
        (∀ (k : Nat) (raw pl : Buffer), s.inq[k]? = some raw → frames[k]? = some pl →
          IsPlanarOf s.w.toNat s.h.toNat raw pl) ∧
        stream.length = s.inq.length * planarSize s ∧
        (∀ pl, frames[0]? = some pl → slice stream 0 (planarSize s) = pl) ∧
        (∀ (k : Nat) (previous current : Buffer), frames[k]? = some previous → frames[k + 1]? = some current →
          IsDeltaOf previous current (slice stream ((k + 1) * planarSize s) ((k + 2) * planarSize s))) ∧
        Yields .enc [hw.codec.compress stream] s)

/-- Rules R160 and R161: DEC. On success there is one picture per whole chunk of the decompressed stream, each made
from the planar frame that the first chunk and the sums of the later chunks give. A length that leaves a partial chunk
is CorruptStreamError (90_conflicts.md C2). -/
def Obligations.DecOutcomes : Prop :=
  encode .dec = 0x41000000#32 ∧
  ∀ s : State,
    (¬DimOk s → EndsIn .dec 1 s) ∧
    (DimOk s → s.inq.length ≠ 1 → EndsIn .dec 5 s) ∧
    (∀ c, DimOk s → s.inq = [c] → hw.codec.decompress c = none ∨
        (∃ x, hw.codec.decompress c = some x ∧ x.length % planarSize s ≠ 0) → EndsIn .dec 3 s) ∧
    (∀ c x, DimOk s → s.inq = [c] → hw.codec.decompress c = some x → x.length % planarSize s = 0 →
      ∃ frames pictures : Queue,
        frames.length = x.length / planarSize s ∧ pictures.length = frames.length ∧
        (∀ pl, frames[0]? = some pl → pl = slice x 0 (planarSize s)) ∧
        (∀ (k : Nat) (previous current : Buffer), frames[k]? = some previous → frames[k + 1]? = some current →
          IsSumOf previous (slice x ((k + 1) * planarSize s) ((k + 2) * planarSize s)) current) ∧
        (∀ (k : Nat) (pl raw : Buffer), frames[k]? = some pl → pictures[k]? = some raw →
          IsRawOf s.w.toNat s.h.toNat pl raw) ∧
        Yields .dec pictures s)

/-- Rule R173, its first condition, for every configuration: a stream that does not decompress ends DCMP and, at
legal dimensions, DEC in CorruptStreamError. (The hardware's own CODEC is one of these; whether it rejects any
stream is not known, rule R143.) -/
def Obligations.FailedDecompressionIsACorruptStream : Prop :=
  ∀ (cfg : Config) (s : State) (c : Buffer), s.inq = [c] → cfg.codec.decompress c = none →
    (∃ t, dcmpIn cfg s = .next t ∧ Raised 3 s t) ∧
    (DimOk s → ∃ t, decIn cfg s = .next t ∧ Raised 3 s t)

/-- Rules R153 and R163: no frames are a legal sequence both ways. -/
def Obligations.ZeroFramesAreLegal : Prop :=
  ∀ s : State, DimOk s →
    (s.inq = [] → Yields .enc [hw.codec.compress []] s) ∧
    (∀ c, s.inq = [c] → hw.codec.decompress c = some [] → Yields .dec [] s)

/-- Rules R80 and R176: every processing command completes in every state, in a success or in one error with no
output, and keeps W, H and (on success) the sticky flags. Which result and which error is said command by command
above. -/
def Obligations.ProcessingCommandsSucceedOrRaise : Prop :=
  ∀ (i : Instr) (s : State), isProcessing i = true →
    ∃ t, exec i s = .next t ∧
      ((∃ res, Succeeded res s t) ∨ Raised 1 s t ∨ Raised 2 s t ∨ Raised 3 s t ∨ Raised 5 s t)

/-- Rules R171 to R175, R178 and R179: which processing command reports which error, and that a bad dimension is
reported before anything else by exactly the commands that read W and H. -/
def Obligations.ErrorsByCommand : Prop :=
  ∀ (i : Instr) (s t : State), isProcessing i = true → exec i s = .next t →
    (t.status.toNat % 16 = 1 ↔ usesDims i = true ∧ ¬DimOk s) ∧
    (t.status.toNat % 16 = 2 → i ∈ [.xfwd, .xinv, .dfwd, .dinv, .enc]) ∧
    (t.status.toNat % 16 = 3 → i ∈ [.dcmp, .dec]) ∧
    t.status.toNat % 16 ≠ 4 ∧
    (t.status.toNat % 16 = 5 ↔
      (usesDims i = true → DimOk s) ∧
        (i ∈ [.xfwd, .xinv, .cmpr, .dcmp, .dec] ∧ s.inq.length ≠ 1 ∨ i ∈ [.dfwd, .dinv] ∧ s.inq.length ≠ 2))

/-- Rules R10, R15 and R152 (d): what a processing command leaves in W, H, INQ, OUTQ and ERR is a function of W, H
and INQ; no command reads STATUS or OUTQ, and a command that does not use the dimensions does not read W or H. -/
def Obligations.ProcessingReadsOnlyDimsAndInq : Prop :=
  ∀ (i : Instr) (s s' t t' : State), isProcessing i = true →
    (usesDims i = true → s.w = s'.w ∧ s.h = s'.h) → s.inq = s'.inq →
    exec i s = .next t → exec i s' = .next t' →
    t.inq = t'.inq ∧ t.outq = t'.outq ∧ t.status.toNat % 16 = t'.status.toNat % 16

/-! ### The picture and delta arithmetic -/

/-- Rule R132: the delta codec is lossless in both compositions, as functions and as the two commands. -/
def Obligations.DeltaCodecIsLossless : Prop :=
  ∀ a b : Buffer, a.length = b.length →
    deltaInv a (deltaFwd a b) = b ∧ deltaFwd a (deltaInv a b) = b ∧
    ∀ s : State, ∃ d, Yields .dfwd [d] { s with inq := [a, b] } ∧ Yields .dinv [b] { s with inq := [a, d] }

/-- Rule R143: decompression undoes compression, for the hardware's CODEC whatever it is, and so DCMP of what CMPR
gave returns the bytes. -/
def Obligations.CompressionIsLossless : Prop :=
  ∀ (x : Buffer) (s : State),
    hw.codec.decompress (hw.codec.compress x) = some x ∧
    ∃ c, Yields .cmpr [c] { s with inq := [x] } ∧ Yields .dcmp [x] { s with inq := [c] }

/-- Rule R117: a frame of one colour transcodes to its luma at every pixel and its chroma at every block. -/
def Obligations.SolidColourHasNoArtifacts : Prop :=
  ∀ (s : State) (r g b y u v : Byte), DimOk s → rgbToYuv8 hwCoefFwd r g b = (y, u, v) →
    s.inq = [(List.replicate (s.w.toNat * s.h.toNat) [r, g, b]).flatten] →
    Yields .xfwd
      [List.replicate (s.w.toNat * s.h.toNat) y ++ List.replicate (s.w.toNat * s.h.toNat / 4) u
        ++ List.replicate (s.w.toNat * s.h.toNat / 4) v] s

/-- Rule R94: the ranges of the forward values, that each bound is reached, and that the store rule never wraps,
neither for a pixel nor for the mean of four. -/
def Obligations.ForwardStoreNeverWraps : Prop :=
  (∀ r g b : Byte,
    (0 ≤ yNum hwCoefFwd r g b ∧ yNum hwCoefFwd r g b ≤ 2550000) ∧
    (5000 ≤ uNum hwCoefFwd r g b ∧ uNum hwCoefFwd r g b ≤ 2424950) ∧
    (6785 ≤ vNum hwCoefFwd r g b ∧ vNum hwCoefFwd r g b ≤ 2552450)) ∧
  (yNum hwCoefFwd 0 0 0 = 0 ∧ yNum hwCoefFwd 255 255 255 = 2550000 ∧
    uNum hwCoefFwd 255 255 0 = 5000 ∧ uNum hwCoefFwd 0 0 255 = 2424950 ∧
    vNum hwCoefFwd 0 255 255 = 6785 ∧ vNum hwCoefFwd 255 0 0 = 2552450) ∧
  (∀ n : Int, 0 ≤ n → n ≤ 2552450 → ((trunc8 n 10000).toNat : Int) = n / 10000) ∧
  (∀ n0 n1 n2 n3 : Int, 0 ≤ n0 → 0 ≤ n1 → 0 ≤ n2 → 0 ≤ n3 →
    n0 ≤ 2552450 → n1 ≤ 2552450 → n2 ≤ 2552450 → n3 ≤ 2552450 →
    ((trunc8 (n0 + n1 + n2 + n3) 40000).toNat : Int) = (n0 + n1 + n2 + n3) / 40000)

/-- Rule R98: for every value in thousandths the stored byte is the clamped integer part, the same whether the clamp
comes before or after the fraction is dropped, toward zero or downward. -/
def Obligations.InverseStoreClampsEitherWay : Prop :=
  ∀ n : Int,
    (sat8 n 1000).toNat = clampThousandths n ∧
    ((sat8 n 1000).toNat : Int) = min (max (n.tdiv 1000) 0) 255 ∧
    ((sat8 n 1000).toNat : Int) = min (max (n / 1000) 0) 255

/-- Rules R91 to R93 and R97: the scaled-integer forms store exactly the bytes of the decimal formulas evaluated
in exact rational arithmetic, in both directions and for every input. -/
def Obligations.IntegerFormsAreExact : Prop :=
  ∀ a b c : Byte,
    rgbToYuv8 hwCoefFwd a b c =
      (trunc8Rat (rgbToYuvRat a b c).1, trunc8Rat (rgbToYuvRat a b c).2.1, trunc8Rat (rgbToYuvRat a b c).2.2) ∧
    yuvToRgb hwCoefInv a b c = yuvToRgbRat a b c

/-- Rule R100: the two directions are not inverses of each other. -/
def Obligations.ColourConversionIsLossy : Prop :=
  rgbToYuv8 hwCoefFwd 255 0 0 = (76, 84, 255) ∧ yuvToRgb hwCoefInv 76 84 255 = (254, 0, 0) ∧
  rgbToYuv8 hwCoefFwd 255 255 255 = (255, 114, 127) ∧ yuvToRgb hwCoefInv 255 114 127 = (253, 255, 230) ∧
  rgbToYuv8 hwCoefFwd 0 0 0 = (0, 128, 128) ∧ yuvToRgb hwCoefInv 0 128 128 = (0, 0, 0)

/-- Rule R118 and 93_implementation_defined.md U3: the two readings of the mean agree on solid blocks and differ by
at most one elsewhere, for any four values the converter can give. -/
def Obligations.AveragingModesDifferByAtMostOne : Prop :=
  ∀ n0 n1 n2 n3 : Int, 0 ≤ n0 → 0 ≤ n1 → 0 ≤ n2 → 0 ≤ n3 →
    n0 ≤ 2552450 → n1 ≤ 2552450 → n2 ≤ 2552450 → n3 ≤ 2552450 →
    (blockMean .truncateThenMean 10000 n0 n1 n2 n3).toNat ≤ (blockMean .meanThenTruncate 10000 n0 n1 n2 n3).toNat ∧
    (blockMean .meanThenTruncate 10000 n0 n1 n2 n3).toNat
      ≤ (blockMean .truncateThenMean 10000 n0 n1 n2 n3).toNat + 1 ∧
    blockMean .meanThenTruncate 10000 n0 n0 n0 n0 = blockMean .truncateThenMean 10000 n0 n0 n0 n0

/-! ### The pipeline -/

/-- Rule R152 (a): the stream length invariant. -/
def Obligations.EncoderOutputHoldsWholeFrames : Prop :=
  ∀ (s t : State) (c : Buffer), exec .enc s = .next t → t.outq = [c] →
    ∃ x, hw.codec.decompress c = some x ∧ x.length = s.inq.length * planarSize s

/-- Rule R162 (a) to (c): DEC of what ENC gave, at the same dimensions, returns as many frames as went in, each the
inverse transcoding of its own forward transcoding: the delta codec and the compressor lose nothing. -/
def Obligations.DecodeRestoresEveryEncodedFrame : Prop :=
  ∀ s : State, DimOk s → (∀ raw ∈ s.inq, raw.length = rawSize s) →
    ∃ (t : State) (c : Buffer), exec .enc s = .next t ∧ t.outq = [c] ∧
      Yields .dec (s.inq.map fun raw =>
        transcodeInv hw (transcodeFwd hw raw s.w.toNat s.h.toNat) s.w.toNat s.h.toNat) { t with inq := [c] }

/-! ### The whole machine -/

/-- Rule R20: the reset values, after reset and after SRST, and that a command that uses the dimensions raises
DimensionError while either register still holds its reset value. -/
def Obligations.ResetValues : Prop :=
  State.reset.w = 0 ∧ State.reset.h = 0 ∧ State.reset.status = 0 ∧ State.reset.inq = [] ∧ State.reset.outq = [] ∧
  (∀ s : State, ∃ t, exec .srst s = .next t ∧ t.w = 0 ∧ t.h = 0 ∧ t.status = 0 ∧ t.inq = [] ∧ t.outq = []) ∧
  ∀ (i : Instr) (s : State), usesDims i = true → s.w = 0 ∨ s.h = 0 → EndsIn i 1 s

/-- Rules R14, R15 and R17: the invariant `Inv` holds after reset. -/
def Obligations.InvariantAtReset : Prop := Inv State.reset

/-- Rules R14, R15, R17 and R176: every step keeps `Inv`, so the reserved bits of STATUS read 0, ERR never takes 6
to 15, a shown error has its sticky flag set, and no output stands beside the error of a processing command. -/
def Obligations.EveryStepKeepsTheInvariant : Prop :=
  ∀ s t : State, Inv s → step s = .next t → Inv t

/-- Rules R10 (its column "Written by"), R13, R15 and R33: which commands can write which item; bytes enter INQ by
PUTB and NEWB only, every other command that changes it empties it, and no command touches the host's list. -/
def Obligations.WhoWritesWhat : Prop :=
  ∀ (i : Instr) (s t : State), exec i s = .next t →
    (t.w ≠ s.w → (∃ v, i = .setw v) ∨ i = .srst) ∧
    (t.h ≠ s.h → (∃ v, i = .seth v) ∨ i = .srst) ∧
    (t.status ≠ s.status → isProcessing i = true ∨ i = .clre ∨ i = .srst) ∧
    (t.inq ≠ s.inq →
      (isProcessing i = true ∨ i = .clri ∨ i = .srst) ∧ t.inq = [] ∨ (∃ b, i = .putb b) ∨ i = .newb) ∧
    (t.outq ≠ s.outq → isProcessing i = true ∨ (i = .clro ∨ i = .srst) ∧ t.outq = []) ∧
    t.moves = s.moves ∧ t.pos = s.pos

/-- Rules R14 and R180: a sticky flag, once set, stays until CLRE, SRST or the reset input. -/
def Obligations.StickyFlagsStayUntilCleared : Prop :=
  ∀ (s t : State) (n : Nat), step s = .next t → 4 ≤ n → s.status.getLsbD n = true → t.status.getLsbD n = false →
    s.moves[s.pos]? = some .reset ∨ s.moves[s.pos]? = some (.word 0x07000000) ∨
      s.moves[s.pos]? = some (.word 0x0F000000)

/-- Rule R201: SRST and then a list of words, from any state, ends where the list ends from reset. -/
def Obligations.SrstStartsARunAfresh : Prop :=
  ∀ (words : List Word) (s : State),
    ∃ t u, runWords (0x0F000000 :: words) s = .next t ∧ runWords words State.reset = .next u ∧
      t.w = u.w ∧ t.h = u.h ∧ t.status = u.status ∧ t.inq = u.inq ∧ t.outq = u.outq

/-! ### The host's ports, the assembler, the capacity parameters -/

/-- Rules R37 and R39: the register numbers and what they read as. -/
def Obligations.RegisterReads : Prop :=
  ∀ (s : State) (n : Nat),
    readReg 0 s = .ok (BitVec.ofNat 32 s.w.toNat) ∧ readReg 1 s = .ok (BitVec.ofNat 32 s.h.toNat) ∧
    readReg 2 s = .ok s.status ∧ (3 ≤ n → readReg n s = .error (.noSuchRegister n))

/-- Rule R40: the count, the lengths and the bytes of the result; a read outside it is refused. -/
def Obligations.OutqReads : Prop :=
  ∀ (s : State) (k i : Nat),
    outqCount s = s.outq.length ∧
    (∀ b, s.outq[k]? = some b → outqLength k s = .ok b.length ∧
      (∀ x, b[i]? = some x → outqByte k i s = .ok x) ∧
      (b.length ≤ i → outqByte k i s = .error .outqReadOutOfRange)) ∧
    (s.outq.length ≤ k → outqLength k s = .error .outqReadOutOfRange ∧
      outqByte k i s = .error .outqReadOutOfRange)

/-- Rule R60: an operand that fits its immediate gives the command's word, a larger one gives no word at all. -/
def Obligations.AssemblerNeverTruncates : Prop :=
  ∀ n : Nat,
    (n ≤ 65535 → assembleItem (.setw n) = .ok [BitVec.ofNat 32 (0x01000000 + n)] ∧
      assembleItem (.seth n) = .ok [BitVec.ofNat 32 (0x02000000 + n)]) ∧
    (65535 < n → assembleItem (.setw n) = .error .operandTooLarge ∧
      assembleItem (.seth n) = .error .operandTooLarge) ∧
    (n ≤ 255 → assembleItem (.putb n) = .ok [BitVec.ofNat 32 (0x03000000 + n)]) ∧
    (255 < n → assembleItem (.putb n) = .error .operandTooLarge)

/-- Rules R61 and R73: the pseudo-instructions assemble for all operands in range, and running their words does what
they are for: `.buf` loads one whole buffer as the next entry of INQ, `.dim` sets both dimensions, `.rep` appends equal
bytes to the last buffer, and with INQ empty its first PUTB opens the first buffer. -/
def Obligations.PseudoInstructionsDoWhatTheyStandFor : Prop :=
  ∀ s : State,
    (∀ bs : List Byte, ∃ ws t, assembleItem (.buf (bs.map BitVec.toNat)) = .ok ws ∧
      runWords ws s = .next t ∧ t.inq = s.inq ++ [bs] ∧
        t.w = s.w ∧ t.h = s.h ∧ t.status = s.status ∧ t.outq = s.outq) ∧
    (∀ w h : Dim, ∃ ws t, assembleItem (.dim w.toNat h.toNat) = .ok ws ∧
      runWords ws s = .next t ∧ t.w = w ∧ t.h = h ∧
        t.inq = s.inq ∧ t.status = s.status ∧ t.outq = s.outq) ∧
    (∀ (n : Nat) (b : Byte), ∃ ws t, assembleItem (.rep n b.toNat) = .ok ws ∧
      runWords ws s = .next t ∧
        (∀ q buf, s.inq = q ++ [buf] → t.inq = q ++ [buf ++ List.replicate n b]) ∧
        (s.inq = [] → t.inq = if n = 0 then [] else [List.replicate n b]) ∧
        t.w = s.w ∧ t.h = s.h ∧ t.status = s.status ∧ t.outq = s.outq)

/-- 93_implementation_defined.md U8: a finite QCAP or ALEN, of any value, changes no result. Each command that adds
to a queue takes the step of the unbounded machine when its next state fits, and is refused when it does not. How a
queue is measured is the model's choice (log entry 2). -/
def Obligations.FiniteCapacityOnlyRefuses : Prop :=
  ∀ (cfg free : Config) (b : Byte) (s : State), free = { cfg with qcap := none, alen := none } →
    ∀ run ∈ [fun c => putbIn c b s, fun c => newbIn c s, fun c => xfwdIn c s, fun c => xinvIn c s,
        fun c => dfwdIn c s, fun c => dinvIn c s, fun c => cmprIn c s, fun c => dcmpIn c s,
        fun c => encIn c s, fun c => decIn c s],
      ∃ t, run free = .next t ∧
        (fits cfg t = true → run cfg = .next t) ∧ (fits cfg t = false → run cfg = .refused .capacityExceeded)
end

