-- ==== Sys2Proof/Laws/Flags.lean ====
section
/-! SUPPORT. What the STATUS operations of Sys2Proof/Machine/Flags.lean do, bit by bit. -/
namespace Sys2Proof.Machine

theorem setErr_low (c : BitVec 4) (st : Word) : (setErr c st).toNat % 16 = c.toNat := by
  simp only [setErr, BitVec.toNat_append, BitVec.extractLsb'_toNat]
  have hc := c.isLt
  rw [Nat.shiftLeft_eq, Nat.mul_comm, ← Nat.two_pow_add_eq_or_of_lt hc]
  omega

theorem setErr_bit (c : BitVec 4) (st : Word) (n : Nat) (hn : 4 ≤ n) :
    (setErr c st).getLsbD n = st.getLsbD n := by
  simp only [setErr, BitVec.getLsbD_append, BitVec.getLsbD_extractLsb']
  rw [if_neg (by omega)]
  by_cases h : n < 32
  · simp [show 4 + (n - 4) = n by omega, show n - 4 < 28 by omega]
  · simp [BitVec.getLsbD_of_ge st n (by omega), show ¬ (n - 4 < 28) by omega]

theorem ErrCode.stickyBit_eq (e : ErrCode) : e.stickyBit = 7 + e.code.toNat := rfl

theorem ErrCode.code_pos (e : ErrCode) : 0 < e.code.toNat := by cases e <;> decide

theorem ErrCode.code_le (e : ErrCode) : e.code.toNat ≤ 5 := by cases e <;> decide

theorem setSticky_bit (e : ErrCode) (st : Word) (n : Nat) :
    (setSticky e st).getLsbD n = (st.getLsbD n || decide (n = 7 + e.code.toNat)) := by
  have h5 := e.code_le
  simp only [setSticky, ErrCode.stickyBit, BitVec.getLsbD_or, BitVec.getLsbD_shiftLeft, BitVec.getLsbD_one]
  congr 1
  rw [Bool.eq_iff_iff]
  simp only [Bool.and_eq_true, Bool.not_eq_true', decide_eq_true_eq, decide_eq_false_iff_not]
  omega

theorem setSticky_low (e : ErrCode) (st : Word) : (setSticky e st).toNat % 16 = st.toNat % 16 := by
  have key : (setSticky e st).extractLsb' 0 4 = st.extractLsb' 0 4 := by
    apply BitVec.eq_of_getLsbD_eq
    intro i hi
    have := e.code_pos
    simp [hi, setSticky_bit, show i ≠ 7 + e.code.toNat by omega]
  have := congrArg BitVec.toNat key
  simpa [BitVec.extractLsb'_toNat] using this

/-- STATUS after an error: its code in ERR. -/
theorem statusRaise_low (e : ErrCode) (st : Word) : (statusRaise e st).toNat % 16 = e.code.toNat := by
  rw [statusRaise, setSticky_low, setErr_low]

/-- STATUS after an error: its sticky flag set, every other bit above ERR as it was. -/
theorem statusRaise_bit (e : ErrCode) (st : Word) (n : Nat) (hn : 4 ≤ n) :
    (statusRaise e st).getLsbD n = (st.getLsbD n || decide (n = 7 + e.code.toNat)) := by
  rw [statusRaise, setSticky_bit, setErr_bit _ _ _ hn]

/-- STATUS after a success: ERR is 0. -/
theorem statusSuccess_low (st : Word) : (statusSuccess st).toNat % 16 = 0 := by
  rw [statusSuccess, setErr_low]; rfl

/-- STATUS after a success: every bit above ERR as it was. -/
theorem statusSuccess_bit (st : Word) (n : Nat) (hn : 4 ≤ n) :
    (statusSuccess st).getLsbD n = st.getLsbD n := setErr_bit _ _ _ hn

end Sys2Proof.Machine
end

