-- ==== Sys2Proof/Laws/State.lean ====
section
/-! SUPPORT. What each field write of Sys2Proof/Machine/Ops.lean leaves in each field of the state. -/
namespace Sys2Proof.Machine

variable (s : State)

@[simp] theorem State.setW_w (v : Dim) : (State.setW v s).w = v := rfl
@[simp] theorem State.setW_h (v : Dim) : (State.setW v s).h = s.h := rfl
@[simp] theorem State.setW_status (v : Dim) : (State.setW v s).status = s.status := rfl
@[simp] theorem State.setW_inq (v : Dim) : (State.setW v s).inq = s.inq := rfl
@[simp] theorem State.setW_outq (v : Dim) : (State.setW v s).outq = s.outq := rfl
@[simp] theorem State.setW_moves (v : Dim) : (State.setW v s).moves = s.moves := rfl
@[simp] theorem State.setW_pos (v : Dim) : (State.setW v s).pos = s.pos := rfl

@[simp] theorem State.setH_w (v : Dim) : (State.setH v s).w = s.w := rfl
@[simp] theorem State.setH_h (v : Dim) : (State.setH v s).h = v := rfl
@[simp] theorem State.setH_status (v : Dim) : (State.setH v s).status = s.status := rfl
@[simp] theorem State.setH_inq (v : Dim) : (State.setH v s).inq = s.inq := rfl
@[simp] theorem State.setH_outq (v : Dim) : (State.setH v s).outq = s.outq := rfl
@[simp] theorem State.setH_moves (v : Dim) : (State.setH v s).moves = s.moves := rfl
@[simp] theorem State.setH_pos (v : Dim) : (State.setH v s).pos = s.pos := rfl

@[simp] theorem State.setStatus_w (v : Word) : (State.setStatus v s).w = s.w := rfl
@[simp] theorem State.setStatus_h (v : Word) : (State.setStatus v s).h = s.h := rfl
@[simp] theorem State.setStatus_status (v : Word) : (State.setStatus v s).status = v := rfl
@[simp] theorem State.setStatus_inq (v : Word) : (State.setStatus v s).inq = s.inq := rfl
@[simp] theorem State.setStatus_outq (v : Word) : (State.setStatus v s).outq = s.outq := rfl
@[simp] theorem State.setStatus_moves (v : Word) : (State.setStatus v s).moves = s.moves := rfl
@[simp] theorem State.setStatus_pos (v : Word) : (State.setStatus v s).pos = s.pos := rfl

@[simp] theorem State.setInq_w (v : Queue) : (State.setInq v s).w = s.w := rfl
@[simp] theorem State.setInq_h (v : Queue) : (State.setInq v s).h = s.h := rfl
@[simp] theorem State.setInq_status (v : Queue) : (State.setInq v s).status = s.status := rfl
@[simp] theorem State.setInq_inq (v : Queue) : (State.setInq v s).inq = v := rfl
@[simp] theorem State.setInq_outq (v : Queue) : (State.setInq v s).outq = s.outq := rfl
@[simp] theorem State.setInq_moves (v : Queue) : (State.setInq v s).moves = s.moves := rfl
@[simp] theorem State.setInq_pos (v : Queue) : (State.setInq v s).pos = s.pos := rfl

@[simp] theorem State.setOutq_w (v : Queue) : (State.setOutq v s).w = s.w := rfl
@[simp] theorem State.setOutq_h (v : Queue) : (State.setOutq v s).h = s.h := rfl
@[simp] theorem State.setOutq_status (v : Queue) : (State.setOutq v s).status = s.status := rfl
@[simp] theorem State.setOutq_inq (v : Queue) : (State.setOutq v s).inq = s.inq := rfl
@[simp] theorem State.setOutq_outq (v : Queue) : (State.setOutq v s).outq = v := rfl
@[simp] theorem State.setOutq_moves (v : Queue) : (State.setOutq v s).moves = s.moves := rfl
@[simp] theorem State.setOutq_pos (v : Queue) : (State.setOutq v s).pos = s.pos := rfl

@[simp] theorem State.advance_w : s.advance.w = s.w := rfl
@[simp] theorem State.advance_h : s.advance.h = s.h := rfl
@[simp] theorem State.advance_status : s.advance.status = s.status := rfl
@[simp] theorem State.advance_inq : s.advance.inq = s.inq := rfl
@[simp] theorem State.advance_outq : s.advance.outq = s.outq := rfl
@[simp] theorem State.advance_moves : s.advance.moves = s.moves := rfl
@[simp] theorem State.advance_pos : s.advance.pos = s.pos + 1 := rfl

@[simp] theorem State.resetItems_w : s.resetItems.w = 0 := rfl
@[simp] theorem State.resetItems_h : s.resetItems.h = 0 := rfl
@[simp] theorem State.resetItems_status : s.resetItems.status = 0 := rfl
@[simp] theorem State.resetItems_inq : s.resetItems.inq = [] := rfl
@[simp] theorem State.resetItems_outq : s.resetItems.outq = [] := rfl
@[simp] theorem State.resetItems_moves : s.resetItems.moves = s.moves := rfl
@[simp] theorem State.resetItems_pos : s.resetItems.pos = s.pos := rfl

@[simp] theorem State.raise_w (e : ErrCode) : (s.raise e).w = s.w := rfl
@[simp] theorem State.raise_h (e : ErrCode) : (s.raise e).h = s.h := rfl
@[simp] theorem State.raise_status (e : ErrCode) : (s.raise e).status = statusRaise e s.status := rfl
@[simp] theorem State.raise_inq (e : ErrCode) : (s.raise e).inq = [] := rfl
@[simp] theorem State.raise_outq (e : ErrCode) : (s.raise e).outq = [] := rfl
@[simp] theorem State.raise_moves (e : ErrCode) : (s.raise e).moves = s.moves := rfl
@[simp] theorem State.raise_pos (e : ErrCode) : (s.raise e).pos = s.pos := rfl

@[simp] theorem State.illegalWord_w : s.illegalWord.w = s.w := rfl
@[simp] theorem State.illegalWord_h : s.illegalWord.h = s.h := rfl
@[simp] theorem State.illegalWord_status : s.illegalWord.status = statusRaise .illegalCommand s.status := rfl
@[simp] theorem State.illegalWord_inq : s.illegalWord.inq = s.inq := rfl
@[simp] theorem State.illegalWord_outq : s.illegalWord.outq = s.outq := rfl
@[simp] theorem State.illegalWord_moves : s.illegalWord.moves = s.moves := rfl
@[simp] theorem State.illegalWord_pos : s.illegalWord.pos = s.pos := rfl

@[simp] theorem State.succeed_w (res : Queue) : (s.succeed res).w = s.w := rfl
@[simp] theorem State.succeed_h (res : Queue) : (s.succeed res).h = s.h := rfl
@[simp] theorem State.succeed_status (res : Queue) : (s.succeed res).status = statusSuccess s.status := rfl
@[simp] theorem State.succeed_inq (res : Queue) : (s.succeed res).inq = [] := rfl
@[simp] theorem State.succeed_outq (res : Queue) : (s.succeed res).outq = res := rfl
@[simp] theorem State.succeed_moves (res : Queue) : (s.succeed res).moves = s.moves := rfl
@[simp] theorem State.succeed_pos (res : Queue) : (s.succeed res).pos = s.pos := rfl

end Sys2Proof.Machine
end

