-- ==== Sys2Proof/Laws/Ops.lean ====
section
/-! SUPPORT. One lemma per shared operation that says everything it can do: error entry, success, delivery, the frame
of the processing commands, the checks, the two queue appends. -/
namespace Sys2Proof.Machine

open Sys2Proof.Safety

/-! ### Error entry and success -/

theorem raise_raised (e : ErrCode) (s : State) : Raised e.code.toNat s (s.raise e) :=
  ⟨statusRaise_low e _, fun n hn => statusRaise_bit e _ n hn, rfl, rfl, rfl, rfl, rfl, rfl⟩

theorem succeed_succeeded (res : Queue) (s : State) : Succeeded res s (s.succeed res) :=
  ⟨rfl, rfl, statusSuccess_low _, fun n hn => statusSuccess_bit _ n hn, rfl, rfl, rfl, rfl⟩

/-! ### Delivery and the processing frame -/

/-- At the default capacities every state fits. -/
theorem fits_unbounded (cfg : Config) (hq : cfg.qcap = none) (ha : cfg.alen = none) (s : State) :
    fits cfg s = true := by simp [fits, hq, ha, fitsCap, fitsLen]

/-- Whatever the capacities, empty queues fit. -/
theorem fits_empty (cfg : Config) (s : State) (hi : s.inq = []) (ho : s.outq = []) : fits cfg s = true := by
  have hc : ∀ q, fitsCap q ([] : Queue) = true := fun q => by cases q <;> simp [fitsCap]
  have hl : ∀ a, fitsLen a ([] : Queue) = true := fun a => by cases a <;> simp [fitsLen]
  simp [fits, hi, ho, hc, hl]

@[simp] theorem deliver_hw (s : State) : deliver hw s = .next s := by
  rw [deliver, if_pos (fits_unbounded hw rfl rfl s)]

@[simp] theorem processing_hw_error (e : ErrCode) (s : State) :
    processing hw (.error e) s = .next (s.raise e) := rfl

@[simp] theorem processing_hw_ok (res : Queue) (s : State) :
    processing hw (.ok res) s = .next (s.succeed res) := deliver_hw _

/-- The hardware's processing frame answers a next state always: an error entry or a success. -/
theorem processing_hw_cases (checked : Checked) (s : State) :
    (∃ e, checked = .error e ∧ processing hw checked s = .next (s.raise e)) ∨
    (∃ res, checked = .ok res ∧ processing hw checked s = .next (s.succeed res)) := by
  cases checked with
  | error e => exact .inl ⟨e, rfl, rfl⟩
  | ok res => exact .inr ⟨res, rfl, deliver_hw _⟩

/-! ### Which check a processing command makes -/

/-- The checks and the result of a processing command, as one function of W, H and INQ (rules R80 and R152 (d));
for a control command it is not used. -/
def checkedOf (cfg : Config) (i : Instr) (w h : Nat) (inq : Queue) : Checked :=
  match i with
  | .xfwd => xfwdChecked cfg w h inq
  | .xinv => xinvChecked cfg w h inq
  | .dfwd => dfwdChecked inq
  | .dinv => dinvChecked inq
  | .cmpr => cmprChecked cfg inq
  | .dcmp => dcmpChecked cfg inq
  | .enc => encChecked cfg w h inq
  | .dec => decChecked cfg w h inq
  | .nop | .setw _ | .seth _ | .putb _ | .newb | .clri | .clro | .clre | .srst => .ok []

theorem exec_processing (i : Instr) (hi : isProcessing i = true) (s : State) :
    exec i s = processing hw (checkedOf hw i s.w.toNat s.h.toNat s.inq) s := by
  cases i <;> first | rfl | cases hi

/-! ### The checks, one lemma each -/

theorem dimOk_iff (w h : Nat) : dimOk w h = true ↔ 0 < w ∧ 0 < h ∧ w % 2 = 0 ∧ h % 2 = 0 := by
  simp [dimOk, and_assoc]

theorem checkDims_bad {w h : Nat} (hd : ¬(0 < w ∧ 0 < h ∧ w % 2 = 0 ∧ h % 2 = 0)) (k : Checked) :
    checkDims w h k = .error .dimension := by
  rw [checkDims, if_neg (by rwa [dimOk_iff])]

theorem checkDims_ok {w h : Nat} (hd : 0 < w ∧ 0 < h ∧ w % 2 = 0 ∧ h % 2 = 0) (k : Checked) :
    checkDims w h k = k := by
  rw [checkDims, if_pos ((dimOk_iff w h).2 hd)]

theorem takeOne_bad {q : Queue} (hq : q.length ≠ 1) (k : Buffer → Checked) :
    takeOne q k = .error .operandCount := by
  match q with
  | [] => rfl
  | [_] => exact absurd rfl hq
  | _ :: _ :: _ => rfl

@[simp] theorem takeOne_single (b : Buffer) (k : Buffer → Checked) : takeOne [b] k = k b := rfl

theorem takeTwo_bad {q : Queue} (hq : q.length ≠ 2) (k : Buffer → Buffer → Checked) :
    takeTwo q k = .error .operandCount := by
  match q with
  | [] => rfl
  | [_] => rfl
  | [_, _] => exact absurd rfl hq
  | _ :: _ :: _ :: _ => rfl

@[simp] theorem takeTwo_pair (a b : Buffer) (k : Buffer → Buffer → Checked) : takeTwo [a, b] k = k a b := rfl

theorem checkLen_bad {n m : Nat} (hn : n ≠ m) (k : Checked) : checkLen n m k = .error .sizeMismatch := if_neg hn

theorem checkLen_ok {n m : Nat} (hn : n = m) (k : Checked) : checkLen n m k = k := if_pos hn

theorem checkAllLen_ok {q : Queue} {n : Nat} (hq : ∀ b ∈ q, b.length = n) (k : Checked) :
    checkAllLen q n k = k := if_pos (by simpa using hq)

theorem checkAllLen_bad {q : Queue} {n : Nat} (hq : ∃ b ∈ q, b.length ≠ n) (k : Checked) :
    checkAllLen q n k = .error .sizeMismatch := if_neg (by simpa using hq)

/-! ### Sizes -/

/-- Even dimensions have a multiple of four pixels (rule R31). -/
theorem pixels_mod_four {w h : Nat} (hw : w % 2 = 0) (hh : h % 2 = 0) : w * h % 4 = 0 := by
  obtain ⟨a, rfl⟩ := Nat.dvd_of_mod_eq_zero hw
  obtain ⟨b, rfl⟩ := Nat.dvd_of_mod_eq_zero hh
  rw [show 2 * a * (2 * b) = 4 * (a * b) by ring]
  exact Nat.mul_mod_right 4 _

theorem rawLen_eq (w h : Nat) : rawLen w h = 3 * w * h := by rw [rawLen, pixels, Nat.mul_assoc]

/-- The two expressions of 90_conflicts.md C5 agree on legal dimensions. -/
theorem frameLen_eq {w h : Nat} (hw : w % 2 = 0) (hh : h % 2 = 0) : frameLen w h = 3 * w * h / 2 := by
  have h4 := pixels_mod_four hw hh
  rw [frameLen, chromaLen, pixels, Nat.mul_assoc]
  omega

/-- The quarter of the pixels is the product of the halves. -/
theorem chromaLen_eq {w h : Nat} (hw : w % 2 = 0) (hh : h % 2 = 0) : chromaLen w h = h / 2 * (w / 2) := by
  obtain ⟨a, rfl⟩ := Nat.dvd_of_mod_eq_zero hw
  obtain ⟨b, rfl⟩ := Nat.dvd_of_mod_eq_zero hh
  rw [chromaLen, pixels, show 2 * a * (2 * b) = 4 * (b * a) by ring]
  simp

theorem frameLen_pos {w h : Nat} (hd : 0 < w ∧ 0 < h) : 0 < frameLen w h :=
  Nat.lt_of_lt_of_le (Nat.mul_pos hd.1 hd.2) (Nat.le_add_right _ _)

/-! ### Queues -/

theorem appendByte_concat (b : Byte) (q : Queue) (buf : Buffer) :
    appendByte b (q ++ [buf]) = q ++ [buf ++ [b]] := by
  induction q with
  | nil => rfl
  | cons x q ih =>
    cases q with
    | nil => rfl
    | cons y q => rw [List.cons_append, List.cons_append, appendByte, ← List.cons_append, ih]; rfl

@[simp] theorem appendByte_nil (b : Byte) : appendByte b [] = [[b]] := rfl

/-! ### Position and list are the host's -/

/-- No command touches the host's list or the position. -/
theorem exec_keeps_moves {i : Instr} {s t : State} (h : exec i s = .next t) : t.moves = s.moves ∧ t.pos = s.pos := by
  by_cases hi : isProcessing i = true
  · rw [exec_processing i hi] at h
    obtain ⟨e, -, he⟩ | ⟨res, -, he⟩ := processing_hw_cases (checkedOf hw i s.w.toNat s.h.toNat s.inq) s <;>
    · rw [he] at h; cases h; exact ⟨rfl, rfl⟩
  · cases i <;> first | exact absurd rfl hi | skip
    all_goals
      simp only [exec, execNop, execSetw, execSeth, execPutb, execNewb, execClri, execClro, execClre, execSrst,
        putbIn, newbIn, deliver_hw, Host.Outcome.next.injEq] at h
      subst h
      exact ⟨rfl, rfl⟩

end Sys2Proof.Machine
end

