-- ==== Sys2Proof/Laws/Layout.lean ====
section
/-! SUPPORT. Lengths and index laws of the picture functions: planes, both transcodings, deltas, the stream and its
chunks. -/
namespace Sys2Proof.Machine

/-! ### Row-major lists -/

theorem flatMap_range_length {α : Type} (n m : Nat) (f : Nat → List α) (hf : ∀ i, (f i).length = m) :
    ((List.range n).flatMap f).length = n * m := by
  induction n with
  | zero => simp
  | succ n ih => rw [List.range_succ, List.flatMap_append, List.length_append, ih]; simp [hf, Nat.succ_mul]

theorem flatMap_range_get {α : Type} (n m : Nat) (f : Nat → List α) (hf : ∀ i, (f i).length = m)
    (i j : Nat) (hi : i < n) (hj : j < m) : ((List.range n).flatMap f)[i * m + j]? = (f i)[j]? := by
  induction n with
  | zero => omega
  | succ n ih =>
    rw [List.range_succ, List.flatMap_append, List.getElem?_append, flatMap_range_length n m f hf]
    by_cases h : i < n
    · have : i * m + j < n * m := by
        calc i * m + j < i * m + m := by omega
          _ = (i + 1) * m := (Nat.succ_mul i m).symm
          _ ≤ n * m := Nat.mul_le_mul_right m h
      rw [if_pos this, ih h]
    · have hin : i = n := by omega
      subst hin
      rw [if_neg (by omega), Nat.add_sub_cancel_left]
      simp

theorem plane_length (rows cols : Nat) (f : Nat → Nat → Byte) : (plane rows cols f).length = rows * cols :=
  flatMap_range_length rows cols _ (by simp)

/-- Row-major order (rule R32). -/
theorem plane_get (rows cols : Nat) (f : Nat → Nat → Byte) (i j : Nat) (hi : i < rows) (hj : j < cols) :
    (plane rows cols f)[i * cols + j]? = some (f i j) := by
  rw [plane, flatMap_range_get rows cols _ (by simp) i j hi hj]
  simp [hj]

/-! ### The transcoder -/

theorem transcodeFwd_length (cfg : Config) (raw : Buffer) {w h : Nat} (hw : w % 2 = 0) (hh : h % 2 = 0) :
    (transcodeFwd cfg raw w h).length = frameLen w h := by
  simp only [transcodeFwd, List.length_append, plane_length, ← chromaLen_eq hw hh, frameLen, pixels]
  rw [Nat.mul_comm h w]; omega

theorem transcodeFwd_luma (cfg : Config) (raw : Buffer) {w h row col : Nat} (hr : row < h) (hc : col < w) :
    (transcodeFwd cfg raw w h)[row * w + col]? = some (lumaAt cfg.coefFwd raw w row col) := by
  have hlt : row * w + col < h * w := by
    calc row * w + col < row * w + w := by omega
      _ = (row + 1) * w := (Nat.succ_mul row w).symm
      _ ≤ h * w := Nat.mul_le_mul_right w hr
  rw [transcodeFwd, List.append_assoc, List.getElem?_append_left (by rwa [plane_length]), plane_get _ _ _ _ _ hr hc]

theorem transcodeFwd_u (cfg : Config) (raw : Buffer) {w h i j : Nat} (hi : i < h / 2) (hj : j < w / 2) :
    (transcodeFwd cfg raw w h)[w * h + i * (w / 2) + j]? =
      some (chromaAt cfg.avgMode cfg.coefFwd.scale (uNum cfg.coefFwd) raw w i j) := by
  have hlt : i * (w / 2) + j < h / 2 * (w / 2) := by
    calc i * (w / 2) + j < i * (w / 2) + w / 2 := by omega
      _ = (i + 1) * (w / 2) := (Nat.succ_mul i _).symm
      _ ≤ h / 2 * (w / 2) := Nat.mul_le_mul_right _ hi
  rw [transcodeFwd, List.append_assoc, Nat.mul_comm w h, Nat.add_assoc,
    List.getElem?_append_right (by rw [plane_length]; omega), plane_length, Nat.add_sub_cancel_left,
    List.getElem?_append_left (by rwa [plane_length]), plane_get _ _ _ _ _ hi hj]

theorem transcodeFwd_v (cfg : Config) (raw : Buffer) {w h i j : Nat} (hw : w % 2 = 0) (hh : h % 2 = 0)
    (hi : i < h / 2) (hj : j < w / 2) :
    (transcodeFwd cfg raw w h)[w * h + w * h / 4 + i * (w / 2) + j]? =
      some (chromaAt cfg.avgMode cfg.coefFwd.scale (vNum cfg.coefFwd) raw w i j) := by
  have hq : w * h / 4 = h / 2 * (w / 2) := chromaLen_eq hw hh
  rw [transcodeFwd, hq, Nat.mul_comm w h,
    List.getElem?_append_right (by rw [List.length_append, plane_length, plane_length]; omega),
    List.length_append, plane_length, plane_length,
    show h * w + h / 2 * (w / 2) + i * (w / 2) + j - (h * w + h / 2 * (w / 2)) = i * (w / 2) + j by omega,
    plane_get _ _ _ _ _ hi hj]

theorem rgbAt_length (c : CoefInv) (pl : Buffer) (w h row col : Nat) : (rgbAt c pl w h row col).length = 3 := rfl

theorem transcodeInv_length (cfg : Config) (pl : Buffer) (w h : Nat) :
    (transcodeInv cfg pl w h).length = rawLen w h := by
  rw [transcodeInv, flatMap_range_length h (w * 3) _ (fun _ => flatMap_range_length w 3 _ (fun _ => rfl)), rawLen,
    pixels]
  ring

theorem transcodeInv_get (cfg : Config) (pl : Buffer) {w h row col c : Nat} (hr : row < h) (hc : col < w)
    (h3 : c < 3) :
    (transcodeInv cfg pl w h)[(row * w + col) * 3 + c]? = (rgbAt cfg.coefInv pl w h row col)[c]? := by
  have hlt : col * 3 + c < w * 3 := by omega
  rw [transcodeInv, show (row * w + col) * 3 + c = row * (w * 3) + (col * 3 + c) by ring,
    flatMap_range_get h (w * 3) _ (fun _ => flatMap_range_length w 3 _ (fun _ => rfl)) _ _ hr hlt,
    flatMap_range_get w 3 _ (fun _ => rfl) _ _ hc h3]

/-! ### The delta codec -/

theorem deltaFwd_length {a b : Buffer} (h : a.length = b.length) : (deltaFwd a b).length = b.length := by
  simp [deltaFwd, h]

theorem deltaInv_length {a b : Buffer} (h : a.length = b.length) : (deltaInv a b).length = b.length := by
  simp [deltaInv, h]

theorem deltaFwd_get (a b : Buffer) (i : Nat) (x y : Byte) (hx : a[i]? = some x) (hy : b[i]? = some y) :
    (deltaFwd a b)[i]? = some (y - x) := by
  simp [deltaFwd, List.getElem?_zipWith, hx, hy]

theorem deltaInv_get (a b : Buffer) (i : Nat) (x y : Byte) (hx : a[i]? = some x) (hy : b[i]? = some y) :
    (deltaInv a b)[i]? = some (x + y) := by
  simp [deltaInv, List.getElem?_zipWith, hx, hy]

/-! ### The stream -/

theorem chunks_length (flen : Nat) (s : Buffer) : (chunks flen s).length = s.length / flen := by simp [chunks]

theorem chunks_get (flen : Nat) (s : Buffer) (k : Nat) (hk : k < s.length / flen) :
    (chunks flen s)[k]? = some ((s.drop (k * flen)).take flen) := by simp [chunks, hk]

theorem deltaFrames_length (n : Nat) (p : Buffer) (q : Queue) (hp : p.length = n) (hq : ∀ b ∈ q, b.length = n) :
    (deltaFrames p q).length = q.length * n := by
  induction q generalizing p with
  | nil => simp [deltaFrames]
  | cons c q ih =>
    have hc := hq c (List.mem_cons_self ..)
    rw [deltaFrames, List.length_append, deltaFwd_length (hp.trans hc.symm), hc,
      ih c hc fun b hb => hq b (List.mem_cons_of_mem _ hb), List.length_cons, Nat.succ_mul]
    omega

theorem streamOf_length (n : Nat) (q : Queue) (hq : ∀ b ∈ q, b.length = n) :
    (streamOf q).length = q.length * n := by
  cases q with
  | nil => simp [streamOf]
  | cons k q =>
    have hk := hq k (List.mem_cons_self ..)
    rw [streamOf, List.length_append, hk,
      deltaFrames_length n k q hk fun b hb => hq b (List.mem_cons_of_mem _ hb), List.length_cons, Nat.succ_mul]
    omega

/-- A stream of whole chunks that starts with one of them. -/
theorem chunks_append (n : Nat) (hn : 0 < n) (a s : Buffer) (ha : a.length = n) :
    chunks n (a ++ s) = a :: chunks n s := by
  have hlen : (a ++ s).length / n = s.length / n + 1 := by
    rw [List.length_append, ha, Nat.add_div_left _ hn]
  rw [chunks, hlen, List.range_succ_eq_map, List.map_cons, List.map_map, chunks]
  congr 1
  · simp [← ha]
  · apply List.map_congr_left
    intro k _
    have hd : List.drop (n + k * n) a = [] := List.drop_eq_nil_of_le (by omega)
    simp only [Function.comp_apply, Nat.succ_mul, Nat.add_comm (k * n) n, List.drop_append, hd, ha, List.nil_append,
      Nat.add_sub_cancel_left]

theorem reconstructAfter_length (p : Buffer) (q : Queue) : (reconstructAfter p q).length = q.length := by
  induction q generalizing p with
  | nil => rfl
  | cons d q ih => simp [reconstructAfter, ih]

theorem reconstruct_length (q : Queue) : (reconstruct q).length = q.length := by
  cases q with
  | nil => rfl
  | cons k q => simp [reconstruct, reconstructAfter_length]

end Sys2Proof.Machine
end

