-- ==== Sys2Proof/Laws/Words.lean ====
section
/-! SUPPORT. The fields of a command word and the three encoded formats as numbers, so that statements about words
become linear arithmetic. -/
namespace Sys2Proof

theorem opField_toNat (w : Word) : (opField w).toNat = w.toNat / 2 ^ 24 := by
  have := w.isLt
  simp only [opField, BitVec.extractLsb'_toNat, Nat.shiftRight_eq_div_pow]
  omega

theorem argField_toNat (w : Word) : (argField w).toNat = w.toNat % 2 ^ 24 := by
  simp [argField, BitVec.extractLsb'_toNat]

theorem argField_high8_toNat (w : Word) : ((argField w).extractLsb' 16 8).toNat = w.toNat / 2 ^ 16 % 2 ^ 8 := by
  simp only [BitVec.extractLsb'_toNat, argField_toNat, Nat.shiftRight_eq_div_pow]
  omega

theorem argField_low16_toNat (w : Word) : ((argField w).extractLsb' 0 16).toNat = w.toNat % 2 ^ 16 := by
  simp only [BitVec.extractLsb'_toNat, argField_toNat, Nat.shiftRight_eq_div_pow]
  omega

theorem argField_high16_toNat (w : Word) : ((argField w).extractLsb' 8 16).toNat = w.toNat / 2 ^ 8 % 2 ^ 16 := by
  simp only [BitVec.extractLsb'_toNat, argField_toNat, Nat.shiftRight_eq_div_pow]
  omega

theorem argField_low8_toNat (w : Word) : ((argField w).extractLsb' 0 8).toNat = w.toNat % 2 ^ 8 := by
  simp only [BitVec.extractLsb'_toNat, argField_toNat, Nat.shiftRight_eq_div_pow]
  omega

theorem append_toNat {m n : Nat} (a : BitVec m) (b : BitVec n) : (a ++ b).toNat = a.toNat * 2 ^ n + b.toNat := by
  rw [BitVec.toNat_append, Nat.shiftLeft_eq, Nat.mul_comm, Nat.two_pow_add_eq_or_of_lt b.isLt]

theorem wordN_toNat (op : Byte) : (wordN op).toNat = op.toNat * 2 ^ 24 :=
  (append_toNat op 0#24).trans (by simp)

theorem wordI16_toNat (op : Byte) (imm16 : Dim) : (wordI16 op imm16).toNat = op.toNat * 2 ^ 24 + imm16.toNat := by
  refine (append_toNat (op ++ 0#8) imm16).trans ?_
  rw [append_toNat]
  simp
  ring

theorem wordI8_toNat (op : Byte) (imm8 : Byte) : (wordI8 op imm8).toNat = op.toNat * 2 ^ 24 + imm8.toNat := by
  refine (append_toNat (op ++ 0#16) imm8).trans ?_
  rw [append_toNat]
  simp
  ring

theorem opField_wordN (op : Byte) : opField (wordN op) = op := by
  apply BitVec.eq_of_toNat_eq
  rw [opField_toNat, wordN_toNat]
  omega

theorem opField_wordI16 (op : Byte) (imm16 : Dim) : opField (wordI16 op imm16) = op := by
  have := imm16.isLt
  apply BitVec.eq_of_toNat_eq
  rw [opField_toNat, wordI16_toNat]
  omega

theorem opField_wordI8 (op : Byte) (imm8 : Byte) : opField (wordI8 op imm8) = op := by
  have := imm8.isLt
  apply BitVec.eq_of_toNat_eq
  rw [opField_toNat, wordI8_toNat]
  omega

/-- The mask of format I16 clears the immediate (rules R51 and R53). -/
theorem wordI16_masked (op : Byte) (imm16 : Dim) : wordI16 op imm16 &&& 0xFFFF0000 = wordN op := by
  apply BitVec.eq_of_getLsbD_eq
  intro k hk
  simp only [wordI16, wordN, BitVec.getLsbD_and, BitVec.getLsbD_append]
  interval_cases k <;> simp

/-- The mask of format I8 clears the immediate (rules R51 and R53). -/
theorem wordI8_masked (op : Byte) (imm8 : Byte) : wordI8 op imm8 &&& 0xFFFFFF00 = wordN op := by
  apply BitVec.eq_of_getLsbD_eq
  intro k hk
  simp only [wordI8, wordN, BitVec.getLsbD_and, BitVec.getLsbD_append]
  interval_cases k <;> simp

/-- Four bytes put together are the word they came from (rule R59). -/
theorem wordOfBytes_bytes (w : Word) :
    wordOfBytes (w.extractLsb' 0 8) (w.extractLsb' 8 8) (w.extractLsb' 16 8) (w.extractLsb' 24 8) = w := by
  apply BitVec.eq_of_toNat_eq
  refine (append_toNat (w.extractLsb' 24 8 ++ w.extractLsb' 16 8 ++ w.extractLsb' 8 8) (w.extractLsb' 0 8)).trans ?_
  have := w.isLt
  simp only [append_toNat, BitVec.extractLsb'_toNat, Nat.shiftRight_eq_div_pow]
  omega

/-- The byte channel's decoder reads the front word (rules R56 and R59). -/
theorem decodeBytes_bytesOfWord (w : Word) (rest : List Byte) :
    decodeBytes (bytesOfWord w ++ rest) =
      match decode w with
      | .command i => .command i rest
      | .illegal why => .illegal why rest := by
  cases hd : decode w <;>
    simp only [bytesOfWord, List.cons_append, List.nil_append, decodeBytes, wordOfBytes_bytes, hd]

/-! ### The decoder, one opcode at a time -/

theorem opField_eq {w : Word} {op : Byte} (h : w.toNat / 2 ^ 24 = op.toNat) : opField w = op := by
  apply BitVec.eq_of_toNat_eq; rw [opField_toNat, h]

/-- What the decoder does for each opcode of the table. -/
theorem decode_op00 (w : Word) (h : opField w = 0x00) : decode w = decodeN .nop w := by simp [decode, h]
theorem decode_op01 (w : Word) (h : opField w = 0x01) : decode w = decodeI16 .setw w := by simp [decode, h]
theorem decode_op02 (w : Word) (h : opField w = 0x02) : decode w = decodeI16 .seth w := by simp [decode, h]
theorem decode_op03 (w : Word) (h : opField w = 0x03) : decode w = decodeI8 .putb w := by simp [decode, h]
theorem decode_op04 (w : Word) (h : opField w = 0x04) : decode w = decodeN .newb w := by simp [decode, h]
theorem decode_op05 (w : Word) (h : opField w = 0x05) : decode w = decodeN .clri w := by simp [decode, h]
theorem decode_op06 (w : Word) (h : opField w = 0x06) : decode w = decodeN .clro w := by simp [decode, h]
theorem decode_op07 (w : Word) (h : opField w = 0x07) : decode w = decodeN .clre w := by simp [decode, h]
theorem decode_op0F (w : Word) (h : opField w = 0x0F) : decode w = decodeN .srst w := by simp [decode, h]
theorem decode_op10 (w : Word) (h : opField w = 0x10) : decode w = decodeN .xfwd w := by simp [decode, h]
theorem decode_op11 (w : Word) (h : opField w = 0x11) : decode w = decodeN .xinv w := by simp [decode, h]
theorem decode_op20 (w : Word) (h : opField w = 0x20) : decode w = decodeN .dfwd w := by simp [decode, h]
theorem decode_op21 (w : Word) (h : opField w = 0x21) : decode w = decodeN .dinv w := by simp [decode, h]
theorem decode_op30 (w : Word) (h : opField w = 0x30) : decode w = decodeN .cmpr w := by simp [decode, h]
theorem decode_op31 (w : Word) (h : opField w = 0x31) : decode w = decodeN .dcmp w := by simp [decode, h]
theorem decode_op40 (w : Word) (h : opField w = 0x40) : decode w = decodeN .enc w := by simp [decode, h]
theorem decode_op41 (w : Word) (h : opField w = 0x41) : decode w = decodeN .dec w := by simp [decode, h]

/-- Every word has an opcode of the table, or is illegal for its opcode. -/
theorem decode_cases (w : Word) :
    (opField w = 0x00 ∧ decode w = decodeN .nop w) ∨
    (opField w = 0x01 ∧ decode w = decodeI16 .setw w) ∨
    (opField w = 0x02 ∧ decode w = decodeI16 .seth w) ∨
    (opField w = 0x03 ∧ decode w = decodeI8 .putb w) ∨
    (opField w = 0x04 ∧ decode w = decodeN .newb w) ∨
    (opField w = 0x05 ∧ decode w = decodeN .clri w) ∨
    (opField w = 0x06 ∧ decode w = decodeN .clro w) ∨
    (opField w = 0x07 ∧ decode w = decodeN .clre w) ∨
    (opField w = 0x0F ∧ decode w = decodeN .srst w) ∨
    (opField w = 0x10 ∧ decode w = decodeN .xfwd w) ∨
    (opField w = 0x11 ∧ decode w = decodeN .xinv w) ∨
    (opField w = 0x20 ∧ decode w = decodeN .dfwd w) ∨
    (opField w = 0x21 ∧ decode w = decodeN .dinv w) ∨
    (opField w = 0x30 ∧ decode w = decodeN .cmpr w) ∨
    (opField w = 0x31 ∧ decode w = decodeN .dcmp w) ∨
    (opField w = 0x40 ∧ decode w = decodeN .enc w) ∨
    (opField w = 0x41 ∧ decode w = decodeN .dec w) ∨
    (decode w = .illegal .reservedOpcode ∧ ∀ op ∈ ([0x00, 0x01, 0x02, 0x03, 0x04, 0x05, 0x06, 0x07, 0x0F, 0x10,
      0x11, 0x20, 0x21, 0x30, 0x31, 0x40, 0x41] : List Byte), opField w ≠ op) := by
  by_cases h0 : opField w = 0x00
  · exact .inl ⟨h0, decode_op00 w h0⟩
  refine .inr ?_
  by_cases h1 : opField w = 0x01
  · exact .inl ⟨h1, decode_op01 w h1⟩
  refine .inr ?_
  by_cases h2 : opField w = 0x02
  · exact .inl ⟨h2, decode_op02 w h2⟩
  refine .inr ?_
  by_cases h3 : opField w = 0x03
  · exact .inl ⟨h3, decode_op03 w h3⟩
  refine .inr ?_
  by_cases h4 : opField w = 0x04
  · exact .inl ⟨h4, decode_op04 w h4⟩
  refine .inr ?_
  by_cases h5 : opField w = 0x05
  · exact .inl ⟨h5, decode_op05 w h5⟩
  refine .inr ?_
  by_cases h6 : opField w = 0x06
  · exact .inl ⟨h6, decode_op06 w h6⟩
  refine .inr ?_
  by_cases h7 : opField w = 0x07
  · exact .inl ⟨h7, decode_op07 w h7⟩
  refine .inr ?_
  by_cases h8 : opField w = 0x0F
  · exact .inl ⟨h8, decode_op0F w h8⟩
  refine .inr ?_
  by_cases h9 : opField w = 0x10
  · exact .inl ⟨h9, decode_op10 w h9⟩
  refine .inr ?_
  by_cases h10 : opField w = 0x11
  · exact .inl ⟨h10, decode_op11 w h10⟩
  refine .inr ?_
  by_cases h11 : opField w = 0x20
  · exact .inl ⟨h11, decode_op20 w h11⟩
  refine .inr ?_
  by_cases h12 : opField w = 0x21
  · exact .inl ⟨h12, decode_op21 w h12⟩
  refine .inr ?_
  by_cases h13 : opField w = 0x30
  · exact .inl ⟨h13, decode_op30 w h13⟩
  refine .inr ?_
  by_cases h14 : opField w = 0x31
  · exact .inl ⟨h14, decode_op31 w h14⟩
  refine .inr ?_
  by_cases h15 : opField w = 0x40
  · exact .inl ⟨h15, decode_op40 w h15⟩
  refine .inr ?_
  by_cases h16 : opField w = 0x41
  · exact .inl ⟨h16, decode_op41 w h16⟩
  refine .inr ?_
  refine ⟨by simp only [decode, h0, h1, h2, h3, h4, h5, h6, h7, h8, h9, h10, h11, h12, h13, h14, h15, h16, if_false], ?_⟩
  intro op hop
  simp only [List.mem_cons, List.not_mem_nil, or_false] at hop
  rcases hop with rfl | rfl | rfl | rfl | rfl | rfl | rfl | rfl | rfl | rfl | rfl | rfl | rfl | rfl | rfl | rfl | rfl <;> assumption

theorem toNat_eq_zero {n : Nat} (x : BitVec n) : x = 0 ↔ x.toNat = 0 := by simp [← BitVec.toNat_inj]

/-- What a format's decoder answers, by its must-be-zero bits as a number (rules R51 and R55). -/
theorem decodeN_iff (i : Instr) (w : Word) (d : Decoded) :
    decodeN i w = d ↔
      (w.toNat % 2 ^ 24 = 0 ∧ d = .command i) ∨ (w.toNat % 2 ^ 24 ≠ 0 ∧ d = .illegal .mustBeZero) := by
  have hz := toNat_eq_zero (argField w)
  rw [argField_toNat] at hz
  rw [decodeN]
  by_cases h : argField w = 0
  · have := hz.1 h; rw [if_pos h]; simp only [this, true_and, ne_eq, not_true, false_and, or_false, eq_comm]
  · have := mt hz.2 h; rw [if_neg h]; simp only [this, false_and, ne_eq, not_false_iff, true_and, false_or, eq_comm]

theorem decodeI16_iff (f : Dim → Instr) (w : Word) (d : Decoded) :
    decodeI16 f w = d ↔
      (w.toNat / 2 ^ 16 % 2 ^ 8 = 0 ∧ d = .command (f (BitVec.ofNat 16 w.toNat))) ∨
      (w.toNat / 2 ^ 16 % 2 ^ 8 ≠ 0 ∧ d = .illegal .mustBeZero) := by
  have hv : (argField w).extractLsb' 0 16 = BitVec.ofNat 16 w.toNat :=
    BitVec.eq_of_toNat_eq (by rw [argField_low16_toNat, BitVec.toNat_ofNat])
  have hz := toNat_eq_zero ((argField w).extractLsb' 16 8)
  rw [argField_high8_toNat] at hz
  rw [decodeI16, hv]
  by_cases h : (argField w).extractLsb' 16 8 = 0
  · have := hz.1 h; rw [if_pos h]; simp only [this, true_and, ne_eq, not_true, false_and, or_false, eq_comm]
  · have := mt hz.2 h; rw [if_neg h]; simp only [this, false_and, ne_eq, not_false_iff, true_and, false_or, eq_comm]

theorem decodeI8_iff (f : Byte → Instr) (w : Word) (d : Decoded) :
    decodeI8 f w = d ↔
      (w.toNat / 2 ^ 8 % 2 ^ 16 = 0 ∧ d = .command (f (BitVec.ofNat 8 w.toNat))) ∨
      (w.toNat / 2 ^ 8 % 2 ^ 16 ≠ 0 ∧ d = .illegal .mustBeZero) := by
  have hv : (argField w).extractLsb' 0 8 = BitVec.ofNat 8 w.toNat :=
    BitVec.eq_of_toNat_eq (by rw [argField_low8_toNat, BitVec.toNat_ofNat])
  have hz := toNat_eq_zero ((argField w).extractLsb' 8 16)
  rw [argField_high16_toNat] at hz
  rw [decodeI8, hv]
  by_cases h : (argField w).extractLsb' 8 16 = 0
  · have := hz.1 h; rw [if_pos h]; simp only [this, true_and, ne_eq, not_true, false_and, or_false, eq_comm]
  · have := mt hz.2 h; rw [if_neg h]; simp only [this, false_and, ne_eq, not_false_iff, true_and, false_or, eq_comm]

end Sys2Proof
end

