-- ==== Sys2Proof/Laws/PerInstr.lean ====
section
/-! SUPPORT. Per command: its encoded word is one its own row of the table of rule R53 covers, and the row's opcode is
the word's. -/
namespace Sys2Proof.Laws

/-- The command's word matches the command's row (rule R53). -/
def EncodesRow.Statement (i : Instr) : Prop :=
  ∃ row, opcodeRows[i.rowIndex]? = some row ∧ row.covers (encode i) = true ∧ opField (encode i) = row.op

theorem EncodesRow.nop : EncodesRow.Statement .nop := ⟨_, rfl, by decide, by decide⟩

theorem EncodesRow.setw (imm16 : Dim) : EncodesRow.Statement (.setw imm16) :=
  ⟨_, rfl, by
    rw [OpcodeRow.covers, encode, wordI16_masked]; decide, opField_wordI16 0x01 imm16⟩

theorem EncodesRow.seth (imm16 : Dim) : EncodesRow.Statement (.seth imm16) :=
  ⟨_, rfl, by
    rw [OpcodeRow.covers, encode, wordI16_masked]; decide, opField_wordI16 0x02 imm16⟩

theorem EncodesRow.putb (imm8 : Byte) : EncodesRow.Statement (.putb imm8) :=
  ⟨_, rfl, by
    rw [OpcodeRow.covers, encode, wordI8_masked]; decide, opField_wordI8 0x03 imm8⟩

theorem EncodesRow.newb : EncodesRow.Statement .newb := ⟨_, rfl, by decide, by decide⟩

theorem EncodesRow.clri : EncodesRow.Statement .clri := ⟨_, rfl, by decide, by decide⟩

theorem EncodesRow.clro : EncodesRow.Statement .clro := ⟨_, rfl, by decide, by decide⟩

theorem EncodesRow.clre : EncodesRow.Statement .clre := ⟨_, rfl, by decide, by decide⟩

theorem EncodesRow.srst : EncodesRow.Statement .srst := ⟨_, rfl, by decide, by decide⟩

theorem EncodesRow.xfwd : EncodesRow.Statement .xfwd := ⟨_, rfl, by decide, by decide⟩

theorem EncodesRow.xinv : EncodesRow.Statement .xinv := ⟨_, rfl, by decide, by decide⟩

theorem EncodesRow.dfwd : EncodesRow.Statement .dfwd := ⟨_, rfl, by decide, by decide⟩

theorem EncodesRow.dinv : EncodesRow.Statement .dinv := ⟨_, rfl, by decide, by decide⟩

theorem EncodesRow.cmpr : EncodesRow.Statement .cmpr := ⟨_, rfl, by decide, by decide⟩

theorem EncodesRow.dcmp : EncodesRow.Statement .dcmp := ⟨_, rfl, by decide, by decide⟩

theorem EncodesRow.enc : EncodesRow.Statement .enc := ⟨_, rfl, by decide, by decide⟩

theorem EncodesRow.dec : EncodesRow.Statement .dec := ⟨_, rfl, by decide, by decide⟩

end Sys2Proof.Laws
end

