-- ==== Sys2Proof/Laws/Run.lean ====
section
/-! SUPPORT. Steps and runs: what a step does for each of the host's moves, that every move is a step, and how a run
over a list of words goes on from its first step. -/
namespace Sys2Proof.Machine

open Sys2Proof.Safety

/-! ### One step -/

theorem step_command {s : State} {w : Word} {i : Instr} (hm : s.nextMove = some (.word w))
    (hd : decode w = .command i) : step s = exec i s.advance := by simp only [step, hm, hd]

theorem step_illegal {s : State} {w : Word} {why : Illegal} (hm : s.nextMove = some (.word w))
    (hd : decode w = .illegal why) : step s = .next s.advance.illegalWord := by simp only [step, hm, hd]

theorem step_reset {s : State} (hm : s.nextMove = some .reset) : step s = .next s.advance.resetItems := by
  simp only [step, hm]

/-- Everything a step that answers a next state can have done. -/
theorem step_cases {s t : State} (h : step s = .next t) :
    (s.nextMove = some .reset ∧ t = s.advance.resetItems) ∨
    (∃ w why, s.nextMove = some (.word w) ∧ decode w = .illegal why ∧ t = s.advance.illegalWord) ∨
    (∃ w i, s.nextMove = some (.word w) ∧ decode w = .command i ∧ exec i s.advance = .next t) := by
  cases hm : s.nextMove with
  | none => simp [step, hm] at h
  | some m =>
    cases m with
    | reset => rw [step_reset hm] at h; cases h; exact .inl ⟨rfl, rfl⟩
    | word w =>
      cases hd : decode w with
      | illegal why => rw [step_illegal hm hd] at h; cases h; exact .inr (.inl ⟨w, why, rfl, hd, rfl⟩)
      | command i => rw [step_command hm hd] at h; exact .inr (.inr ⟨w, i, rfl, hd, h⟩)

/-! ### Runs -/

@[simp] theorem runSteps_zero (s : State) : runSteps 0 s = .next s := rfl

theorem runSteps_step {s t : State} (n : Nat) (h : step s = .next t) : runSteps (n + 1) s = runSteps n t := by
  rw [runSteps, h]

/-- `withFetchWord` puts the word where the next step takes it. -/
theorem withFetchWord_nextMove (s : State) (nbits w : Nat) :
    (s.withFetchWord nbits w).nextMove = some (.word (tableWord nbits w)) := by
  have hlen : (s.moves.take s.pos ++ List.replicate (s.pos - s.moves.length) (HostMove.word 0)).length = s.pos := by
    simp; omega
  rw [State.nextMove, State.withFetchWord]
  simp only
  rw [List.getElem?_append_right (by omega), hlen]
  simp

end Sys2Proof.Machine
end

