-- ==== Sys2Proof/Tests/Slice0.lean ====
section
/-! SUPPORT. The model's own tests. Expected results are the spec's worked numbers (95_test_vectors.md, vectors V<n>)
or words written out bit by bit from 30_encoding.md; each comment names its source. After them, for every statement
with hypotheses, a witness that meets them. -/
namespace Sys2Proof.Tests

open Sys2Proof Sys2Proof.Machine Sys2Proof.Safety

/-! ### Helpers -/

/-- A state with nothing left to do. -/
def mk (w h : Dim) (status : Word) (inq outq : Queue) : State :=
  { w := w, h := h, status := status, inq := inq, outq := outq, moves := [], pos := 0 }

/-- The five items of rule R10 after an outcome, when it is a next state. -/
def items : Result → Option State
  | .next t => some (mk t.w t.h t.status t.inq t.outq)
  | .fault _ => none
  | .refused _ => none

/-- One word issued in a state, through `step`. -/
def issue (w : Word) (s : State) : Option State := items (step (load [w] s))

/-- What an assembled line gives, when it is no error. -/
def okWords : Except AsmError (List Word) → Option (List Word)
  | .ok ws => some ws
  | .error _ => none

/-- `decompress` of CODEC_T (95_test_vectors.md section 0). -/
def untag : Buffer → Option Buffer
  | [] => none
  | b :: x => if b = 0xC5 then some x else none

/-- CODEC_T, for testing only. -/
def codecT : Codec where
  compress x := 0xC5 :: x
  decompress := untag
  law _ := rfl

def cfgId : Config := { hw with codec := Codec.identity }
def cfgT : Config := { hw with codec := codecT }

/-- The 2×2 frames of V20 and V25. -/
def frameA : Buffer := [0xFF, 0, 0, 0, 0xFF, 0, 0, 0, 0xFF, 0xFF, 0xFF, 0xFF]
def frameB : Buffer := [10, 20, 30, 40, 50, 60, 70, 80, 90, 100, 110, 120]

/-- The 4×4 frame of V24. -/
def frameC : Buffer :=
  [0x00, 0xFF, 0x00, 0x10, 0xEF, 0x25, 0x20, 0xDF, 0x4A, 0x30, 0xCF, 0x6F,
   0x40, 0xBF, 0x94, 0x50, 0xAF, 0xB9, 0x60, 0x9F, 0xDE, 0x70, 0x8F, 0x03] ++
  [0x80, 0x7F, 0x28, 0x90, 0x6F, 0x4D, 0xA0, 0x5F, 0x72, 0xB0, 0x4F, 0x97,
   0xC0, 0x3F, 0xBC, 0xD0, 0x2F, 0xE1, 0xE0, 0x1F, 0x06, 0xF0, 0x0F, 0x2B]

/-! ### Decoding, one word per command written out as op (8 bits), then arg (24 bits): rules R50 to R53 -/

theorem test_decode_nop : decode 0b00000000_000000000000000000000000 = .command .nop := by decide
theorem test_decode_setw : decode 0b00000001_00000000_1010010110000001 = .command (.setw 0xA581) := by decide
theorem test_decode_seth : decode 0b00000010_00000000_1000000000000010 = .command (.seth 0x8002) := by decide
theorem test_decode_putb : decode 0b00000011_0000000000000000_11000101 = .command (.putb 0xC5) := by decide
theorem test_decode_newb : decode 0b00000100_000000000000000000000000 = .command .newb := by decide
theorem test_decode_clri : decode 0b00000101_000000000000000000000000 = .command .clri := by decide
theorem test_decode_clro : decode 0b00000110_000000000000000000000000 = .command .clro := by decide
theorem test_decode_clre : decode 0b00000111_000000000000000000000000 = .command .clre := by decide
theorem test_decode_srst : decode 0b00001111_000000000000000000000000 = .command .srst := by decide
theorem test_decode_xfwd : decode 0b00010000_000000000000000000000000 = .command .xfwd := by decide
theorem test_decode_xinv : decode 0b00010001_000000000000000000000000 = .command .xinv := by decide
theorem test_decode_dfwd : decode 0b00100000_000000000000000000000000 = .command .dfwd := by decide
theorem test_decode_dinv : decode 0b00100001_000000000000000000000000 = .command .dinv := by decide
theorem test_decode_cmpr : decode 0b00110000_000000000000000000000000 = .command .cmpr := by decide
theorem test_decode_dcmp : decode 0b00110001_000000000000000000000000 = .command .dcmp := by decide
theorem test_decode_enc : decode 0b01000000_000000000000000000000000 = .command .enc := by decide
theorem test_decode_dec : decode 0b01000001_000000000000000000000000 = .command .dec := by decide

/-- V10, its ILLEGAL rows, with the reason of its column "Why". -/
theorem test_decode_illegal_rows :
    decode 0x00000001 = .illegal .mustBeZero ∧ decode 0x01010004 = .illegal .mustBeZero ∧
    decode 0x03000100 = .illegal .mustBeZero ∧ decode 0x10000001 = .illegal .mustBeZero ∧
    decode 0x08000000 = .illegal .reservedOpcode ∧ decode 0x0E000000 = .illegal .reservedOpcode ∧
    decode 0x12000000 = .illegal .reservedOpcode ∧ decode 0x42000000 = .illegal .reservedOpcode ∧
    decode 0xFFFFFFFF = .illegal .reservedOpcode := by decide

/-- V10, its last lines: SETW 4, PUTB 0xFF and ENC as bytes on a byte channel; and three bytes are no word. -/
theorem test_decode_bytes :
    decodeBytes [0x04, 0, 0, 0x01] = .command (.setw 4) [] ∧
    decodeBytes [0xFF, 0, 0, 0x03] = .command (.putb 0xFF) [] ∧
    decodeBytes [0, 0, 0, 0x40, 0xAA] = .command .enc [0xAA] ∧
    decodeBytes [0, 0, 0] = .truncated := by decide

/-! ### WellFormed: each check refuses an ill-formed term (rules R51 to R55 and R60) -/

theorem test_wf_reserved_opcode : wordWellFormed 0x08000000 = false := by decide
theorem test_wf_format_n : wordWellFormed 0x04000001 = false ∧ wordWellFormed 0x04000000 = true := by decide
theorem test_wf_format_i16 : wordWellFormed 0x01010004 = false ∧ wordWellFormed 0x0100FFFF = true := by decide
theorem test_wf_format_i8 : wordWellFormed 0x03000100 = false ∧ wordWellFormed 0x030000FF = true := by decide

theorem test_wf_operands :
    (AsmItem.setw 65536).wellFormed = false ∧ (AsmItem.seth 65536).wellFormed = false ∧
    (AsmItem.putb 256).wellFormed = false ∧ (AsmItem.buf [1, 256]).wellFormed = false ∧
    (AsmItem.dim 65536 2).wellFormed = false ∧ (AsmItem.dim 2 65536).wellFormed = false ∧
    (AsmItem.rep 3 256).wellFormed = false := by decide

/-! ### Control commands (V11, V12) -/

theorem test_nop :
    issue 0x00000000 (mk 4 2 0x101 [[1, 2]] [[9]]) = some (mk 4 2 0x101 [[1, 2]] [[9]]) := by decide
theorem test_setw : issue 0x0100FFFF (mk 0 7 0 [] []) = some (mk 65535 7 0 [] []) := by decide
theorem test_seth : issue 0x0200FFFE (mk 65535 0 0 [] []) = some (mk 65535 65534 0 [] []) := by decide
theorem test_putb_opens : issue 0x03000001 State.reset = some (mk 0 0 0 [[1]] []) := by decide
theorem test_putb_appends :
    issue 0x03000007 (mk 0 0 0 [[1, 2], [], []] []) = some (mk 0 0 0 [[1, 2], [], [7]] []) := by decide
theorem test_newb_twice : issue 0x04000000 (mk 0 0 0 [[1, 2], []] []) = some (mk 0 0 0 [[1, 2], [], []] []) := by
  decide
theorem test_newb_empty : issue 0x04000000 State.reset = some (mk 0 0 0 [[]] []) := by decide
theorem test_clri : issue 0x05000000 (mk 4 2 0x101 [[1, 2]] [[9]]) = some (mk 4 2 0x101 [] [[9]]) := by decide
theorem test_clro : issue 0x06000000 (mk 4 2 0x101 [[1, 2]] [[9]]) = some (mk 4 2 0x101 [[1, 2]] []) := by decide
theorem test_clre : issue 0x07000000 (mk 4 2 0x101 [[1, 2]] [[9]]) = some (mk 4 2 0 [[1, 2]] [[9]]) := by decide
theorem test_srst : issue 0x0F000000 (mk 4 2 0x101 [[1, 2]] [[9]]) = some (mk 0 0 0 [] []) := by decide

/-- V63: an illegal word writes STATUS only. -/
theorem test_illegal_word :
    issue 0x08000000 (mk 2 2 0 [[5, 6]] []) = some (mk 2 2 0x804 [[5, 6]] []) ∧
    issue 0x10000001 (mk 2 2 0 [[5, 6]] []) = some (mk 2 2 0x804 [[5, 6]] []) := by decide

/-- V62 with P8: the first three errors in a row, from the states the program has before them. -/
theorem test_sticky_flags :
    issue 0x10000000 (mk 2 2 0 [] []) = some (mk 2 2 0x1005 [] []) ∧
    issue 0x10000000 (mk 1 1 0x1005 [] []) = some (mk 1 1 0x1101 [] []) ∧
    issue 0x42000000 (mk 1 1 0x1101 [] []) = some (mk 1 1 0x1904 [] []) := by decide

/-! ### The colour converter (V13, V14) -/

theorem test_forward_rows :
    rgbToYuv8 hwCoefFwd 255 255 0 = (225, 0, 148) ∧ rgbToYuv8 hwCoefFwd 0 255 255 = (178, 158, 0) ∧
    rgbToYuv8 hwCoefFwd 1 1 1 = (1, 127, 127) ∧ rgbToYuv8 hwCoefFwd 100 100 100 = (100, 122, 127) ∧
    rgbToYuv8 hwCoefFwd 200 100 50 = (124, 83, 181) := by decide

theorem test_inverse_rows :
    yuvToRgb hwCoefInv 255 128 128 = (255, 255, 255) ∧ yuvToRgb hwCoefInv 128 0 0 = (0, 255, 0) ∧
    yuvToRgb hwCoefInv 128 255 255 = (255, 0, 255) ∧ yuvToRgb hwCoefInv 100 200 50 = (0, 130, 227) ∧
    yuvToRgb hwCoefInv 0 0 0 = (0, 135, 0) := by decide

/-- V20: this hardware's mean gives 79, the other reading 78. -/
theorem test_averaging_modes :
    transcodeFwd hw frameA 2 2 = [0x4C, 0x95, 0x1D, 0xFF, 0x79, 0x7F] ∧
    transcodeFwd { hw with avgMode := .truncateThenMean } frameA 2 2 = [0x4C, 0x95, 0x1D, 0xFF, 0x78, 0x7F] := by
  decide

/-! ### Processing commands -/

/-- V24: sixteen different pixels, chroma planes of 2×2. -/
theorem test_xfwd_planes :
    issue 0x10000000 (mk 4 4 0x100 [frameC] [[1]]) = some (mk 4 4 0x100
        [] [[0x95, 0x95, 0x94, 0x94, 0x94, 0x93, 0x93, 0x75, 0x75, 0x74, 0x74, 0x74, 0x73, 0x73, 0x55, 0x55,
        0x5B, 0x65, 0x82, 0x6F, 0x32, 0x4F, 0xA4, 0xC6]]) := by decide

/-- V26: the first of its rows for each error of XFWD. -/
theorem test_xfwd_errors :
    issue 0x10000000 (mk 3 2 0 [List.replicate 18 7] []) = some (mk 3 2 0x101 [] []) ∧
    issue 0x10000000 (mk 2 2 0 [] []) = some (mk 2 2 0x1005 [] []) ∧
    issue 0x10000000 (mk 2 2 0 [[]] []) = some (mk 2 2 0x202 [] []) := by decide

/-- V23: its inverse, where two chroma samples stand one below the other. -/
theorem test_xinv_planes :
    issue 0x11000000 (mk 2 4 0 [[0x7C, 0x12, 0x95, 0xE1, 0x1E, 0x64, 0x1D, 0x69, 0x41, 0xAF, 0x76, 0x92]] []) =
      some (mk 2 4 0
        [] [[0x6D, 0x98, 0x0C, 0x03, 0x2E, 0x00, 0x86, 0xB1, 0x25, 0xD2, 0xFD, 0x71,
          0x37, 0x00, 0x71, 0x7D, 0x46, 0xB7, 0x36, 0x00, 0x70, 0x82, 0x4B, 0xBC]]) := by decide

/-- V26 and V60: XINV. -/
theorem test_xinv_errors :
    issue 0x11000000 (mk 2 2 0 [[1], [2]] []) = some (mk 2 2 0x1005 [] []) ∧
    issue 0x11000000 (mk 2 2 0 [List.replicate 12 1] []) = some (mk 2 2 0x202 [] []) := by decide

/-- V30. -/
theorem test_dfwd :
    issue 0x20000000 (mk 0 0 0 [[0x0A, 0xC8, 0xFF, 0x00], [0x14, 0x64, 0x00, 0xFF]] []) =
      some (mk 0 0 0 [] [[0x0A, 0x9C, 0x01, 0xFF]]) := by decide

/-- V33: one buffer, three buffers, two empty ones; and odd dimensions do not matter. -/
theorem test_dfwd_corners :
    issue 0x20000000 (mk 0 0 0 [[1, 2]] []) = some (mk 0 0 0x1005 [] []) ∧
    issue 0x20000000 (mk 0 0 0 [[1], [2], [3]] []) = some (mk 0 0 0x1005 [] []) ∧
    issue 0x20000000 (mk 0 0 0 [[], []] []) = some (mk 0 0 0 [] [[]]) ∧
    issue 0x20000000 (mk 3 0 0 [[5], [7]] []) = some (mk 3 0 0 [] [[2]]) := by decide

/-- V31. -/
theorem test_dinv :
    issue 0x21000000 (mk 0 0 0 [[0x0A, 0xC8, 0xFF, 0x00], [0x0A, 0x9C, 0x01, 0xFF]] []) =
      some (mk 0 0 0 [] [[0x14, 0x64, 0x00, 0xFF]]) := by decide

/-- V33. -/
theorem test_dinv_size : issue 0x21000000 (mk 0 0 0 [[1, 2], [3]] []) = some (mk 0 0 0x202 [] []) := by decide

/-- V42 and V40. -/
theorem test_cmpr :
    items (cmprIn cfgT (mk 0 0 0 [[1, 2, 3]] [])) = some (mk 0 0 0 [] [[0xC5, 1, 2, 3]]) ∧
    items (cmprIn cfgT (mk 0 0 0 [[]] [])) = some (mk 0 0 0 [] [[0xC5]]) ∧
    items (cmprIn cfgT (mk 0 0 0 [] [])) = some (mk 0 0 0x1005 [] []) := by decide

/-- V42. -/
theorem test_dcmp :
    items (dcmpIn cfgT (mk 0 0 0 [[0xC5, 9, 8]] [])) = some (mk 0 0 0 [] [[9, 8]]) ∧
    items (dcmpIn cfgT (mk 0 0 0 [[]] [])) = some (mk 0 0 0x403 [] []) ∧
    items (dcmpIn cfgT (mk 0 0 0 [[0, 1, 2]] [])) = some (mk 0 0 0x403 [] []) := by decide

/-- V50. -/
theorem test_enc_two_frames :
    items (encIn cfgT (mk 2 2 0 [frameA, frameB] [])) = some (mk 2 2 0
        [] [[0xC5, 0x4C, 0x95, 0x1D, 0xFF, 0x79, 0x7F, 0xC6, 0x9B, 0x31, 0x6D, 0x09, 0xFB]]) := by decide

/-- V51, its third delta, which is against the second frame; and V55, a frame of the wrong size. -/
theorem test_enc_delta_and_size :
    (streamOf [[0x4C, 0x95, 0x1D, 0xFF, 0x79, 0x7F], [0x12, 0x30, 0x4E, 0x6C, 0x82, 0x7A],
      [0, 0, 0, 0, 0x80, 0x80]]).drop 12 = [0xEE, 0xD0, 0xB2, 0x94, 0xFE, 0x06] ∧
    items (encIn cfgId (mk 2 2 0 [frameA, [1, 2, 3]] [])) = some (mk 2 2 0x202 [] []) ∧
    items (encIn cfgId (mk 2 2 0 [frameA, []] [])) = some (mk 2 2 0x202 [] []) := by decide

/-- V50, decoded. -/
theorem test_dec_two_frames :
    items (decIn cfgT
      (mk 2 2 0 [[0xC5, 0x4C, 0x95, 0x1D, 0xFF, 0x79, 0x7F, 0xC6, 0x9B, 0x31, 0x6D, 0x09, 0xFB]] [])) =
      some (mk 2 2 0
        [] [[0x4A, 0x4F, 0x3F, 0x93, 0x98, 0x88, 0x1B, 0x20, 0x10, 0xFD, 0xFF, 0xF2],
         [0x09, 0x15, 0x15, 0x27, 0x33, 0x33, 0x45, 0x51, 0x51, 0x63, 0x6F, 0x6F]]) := by decide

/-- V55: a partial chunk, a failed decompression, no frames, two buffers. -/
theorem test_dec_errors :
    items (decIn cfgId (mk 2 2 0 [[1, 2, 3, 4, 5, 6, 7]] [])) = some (mk 2 2 0x403 [] []) ∧
    items (decIn cfgT (mk 2 2 0 [[0, 1, 2, 3, 4, 5, 6]] [])) = some (mk 2 2 0x403 [] []) ∧
    items (decIn cfgId (mk 2 2 0 [[]] [])) = some (mk 2 2 0 [] []) ∧
    items (decIn cfgT (mk 2 2 0 [[1], [2]] [])) = some (mk 2 2 0x1005 [] []) := by decide

/-! ### The assembler (rules R60 and R61, P4) -/

theorem test_assemble_lines :
    okWords (assembleLine "PUTB 0xFF  # one byte".toList) = some [0x030000FF] ∧
    okWords (assembleLine ".dim 3 2".toList) = some [0x01000003, 0x02000002] ∧
    okWords (assembleLine ".buf 1 2".toList) = some [0x04000000, 0x03000001, 0x03000002] ∧
    okWords (assembleLine ".rep 3 7".toList) = some [0x03000007, 0x03000007, 0x03000007] ∧
    okWords (assembleLine "# nothing".toList) = some [] ∧
    okWords (assembleLine "PUTB 256".toList) = none ∧ okWords (assembleLine "NOP 1".toList) = none := by decide

/-! ### Witnesses: hypotheses of the statements, met -/

theorem witness_CommandHasOnlyOneWord : decode 0x030000FF = .command (.putb 0xFF) := by decide

theorem witness_WordIsCommandWhenItsRowCovers :
    decode 0x0100FFFF = .command (.setw 0xFFFF) ∧
    opcodeRows[16]? = some ⟨"DEC", 0x41, .n, 0x41000000, 0xFFFFFFFF⟩ ∧
    OpcodeRow.covers ⟨"DEC", 0x41, .n, 0x41000000, 0xFFFFFFFF⟩ 0x41000000 = true := by decide

/-- Both ends of every range of rule R54. -/
theorem witness_ReservedOpcodesAreIllegal :
    ([0x08, 0x0E, 0x12, 0x1F, 0x22, 0x2F, 0x32, 0x3F, 0x42, 0xFF] : List Nat).all
      (fun op => decide (op = (BitVec.ofNat 32 (op * 2 ^ 24 + 0xFFFFFF)).toNat / 2 ^ 24) &&
        decide (decode (BitVec.ofNat 32 (op * 2 ^ 24 + 0xFFFFFF)) = .illegal .reservedOpcode)) = true ∧
    ([0x07, 0x0F, 0x11, 0x20, 0x21, 0x30, 0x31, 0x40, 0x41] : List Nat).all
      (fun op => decide (decode (BitVec.ofNat 32 (op * 2 ^ 24)) ≠ .illegal .reservedOpcode)) = true := by decide

/-- Each clause at the lowest and the highest must-be-zero bit of its format. -/
theorem witness_MustBeZeroBitsAreChecked :
    decode 0x00000001 = .illegal .mustBeZero ∧ decode 0x41800000 = .illegal .mustBeZero ∧
    decode 0x01010000 = .illegal .mustBeZero ∧ decode 0x02800000 = .illegal .mustBeZero ∧
    decode 0x0200FFFF = .command (.seth 0xFFFF) ∧
    decode 0x03000100 = .illegal .mustBeZero ∧ decode 0x03800000 = .illegal .mustBeZero ∧
    decode 0x030000FF = .command (.putb 0xFF) := by decide

theorem witness_OnlyNopIsANoOp : (0x00000001 : Word) ≠ 0 ∧ (0xFFFFFFFF : Word) ≠ 0 := by decide

theorem witness_StepRunsTheDecodedCommand :
    (load [0x00000000, 0x0F000000] State.reset).moves[0]? = some (.word 0x00000000) ∧
    decode 0x00000000 = .command .nop := by decide

theorem witness_IllegalWordWritesOnlyStatus :
    (load [0xFFFFFFFF] (mk 2 2 0 [[5, 6]] [])).moves[0]? = some (.word 0xFFFFFFFF) ∧
    decode 0xFFFFFFFF = .illegal .reservedOpcode := by decide

theorem witness_ResetInputLeavesTheResetState :
    ({ mk 4 2 0x101 [[1]] [[2]] with moves := [.reset] } : State).moves[0]? = some .reset := by decide

theorem witness_NoStepAfterTheLastMove : State.reset.moves.length ≤ State.reset.pos := by decide

theorem witness_NopChangesNothing :
    (0x00000001 : Word).toNat / 2 ^ 24 = 0 ∧ (0x00000001 : Word).toNat % 2 ^ 24 ≠ 0 ∧
    (0x00FFFFFF : Word).toNat / 2 ^ 24 = 0 ∧ (0x00FFFFFF : Word).toNat % 2 ^ 24 ≠ 0 := by decide

theorem witness_PutbAppendsToTheLastBuffer :
    State.reset.inq = [] ∧ (mk 0 0 0 [[1], []] []).inq = [[1]] ++ [[]] := by decide

theorem witness_ControlCommandsReadOnlyInq :
    isProcessing .newb = false ∧ (mk 4 2 0x101 [[1]] [[2]]).inq = (mk 0 0 0 [[1]] []).inq := by decide

/-- The four clauses: H odd, no buffer, one byte short, the frame of V20. -/
theorem witness_XfwdOutcomes :
    ¬DimOk (mk 2 1 0 [] []) ∧
    (DimOk (mk 2 2 0 [] []) ∧ (mk 2 2 0 [] []).inq.length ≠ 1) ∧
    (DimOk (mk 2 2 0 [List.replicate 11 0] []) ∧ (List.replicate 11 (0 : Byte)).length ≠ rawSize (mk 2 2 0 [] [])) ∧
    (DimOk (mk 2 2 0 [frameA] []) ∧ frameA.length = rawSize (mk 2 2 0 [frameA] [])) := by decide

theorem witness_XinvOutcomes :
    ¬DimOk (mk 0 2 0 [] []) ∧
    (DimOk (mk 65534 2 0 [[], []] []) ∧ (mk 65534 2 0 [[], []] []).inq.length ≠ 1) ∧
    (DimOk (mk 2 2 0 [List.replicate 7 0] []) ∧
      (List.replicate 7 (0 : Byte)).length ≠ planarSize (mk 2 2 0 [] [])) ∧
    (DimOk (mk 2 2 0 [List.replicate 6 0] []) ∧
      (List.replicate 6 (0 : Byte)).length = planarSize (mk 2 2 0 [] [])) := by decide

theorem witness_DfwdOutcomes :
    (mk 0 0 0 [[1]] []).inq.length ≠ 2 ∧ (mk 0 0 0 [[], [], []] []).inq.length ≠ 2 ∧
    (mk 0 0 0 [[1], []] []).inq = [[1], []] ∧ ([1] : Buffer).length ≠ ([] : Buffer).length ∧
    (mk 0 0 0 [[], []] []).inq = [[], []] ∧ ([] : Buffer).length = ([] : Buffer).length := by decide

theorem witness_DinvOutcomes :
    (mk 0 0 0 [] []).inq.length ≠ 2 ∧
    (mk 0 0 0 [[], [2]] []).inq = [[], [2]] ∧ ([] : Buffer).length ≠ ([2] : Buffer).length ∧
    (mk 0 0 0 [[1], [2]] []).inq = [[1], [2]] ∧ ([1] : Buffer).length = ([2] : Buffer).length := by decide

theorem witness_CmprOutcomes :
    (mk 0 0 0 [[], []] []).inq.length ≠ 1 ∧ (mk 0 0 0 [[]] []).inq = [[]] := by decide

theorem witness_DcmpOutcomes :
    (mk 0 0 0 [] []).inq.length ≠ 1 ∧
    (mk 0 0 0 [hw.codec.compress [1, 2]] []).inq = [hw.codec.compress [1, 2]] ∧
    hw.codec.decompress (hw.codec.compress [1, 2]) = some [1, 2] :=
  ⟨by decide, rfl, hw.codec.law [1, 2]⟩

theorem witness_EncOutcomes :
    ¬DimOk (mk 2 0 0 [] []) ∧
    (DimOk (mk 2 2 0 [frameA, []] []) ∧ ([] : Buffer) ∈ (mk 2 2 0 [frameA, []] []).inq ∧
      ([] : Buffer).length ≠ rawSize (mk 2 2 0 [frameA, []] [])) ∧
    (DimOk (mk 2 2 0 [frameA, frameB] []) ∧
      ∀ raw ∈ (mk 2 2 0 [frameA, frameB] []).inq, raw.length = rawSize (mk 2 2 0 [frameA, frameB] [])) := by
  decide

/-- The clauses: W odd, no buffer, a stream of seven bytes (one over a frame), a stream of two whole frames. -/
theorem witness_DecOutcomes :
    ¬DimOk (mk 1 2 0 [] []) ∧
    (DimOk (mk 2 2 0 [] []) ∧ (mk 2 2 0 [] []).inq.length ≠ 1) ∧
    (DimOk (mk 2 2 0 [hw.codec.compress (List.replicate 7 1)] []) ∧
      ∃ x, hw.codec.decompress (hw.codec.compress (List.replicate 7 1)) = some x ∧
        x.length % planarSize (mk 2 2 0 [] []) ≠ 0) ∧
    (hw.codec.decompress (hw.codec.compress (List.replicate 12 1)) = some (List.replicate 12 1) ∧
      (List.replicate 12 (1 : Byte)).length % planarSize (mk 2 2 0 [] []) = 0) :=
  ⟨by decide, by decide, ⟨by unfold DimOk mk; decide, _, hw.codec.law _, by decide⟩, hw.codec.law _, by decide⟩

/-- With CODEC_T the decompression of an untagged stream fails, at legal dimensions too. -/
theorem witness_FailedDecompressionIsACorruptStream :
    (mk 2 2 0 [[0, 1]] []).inq = [[0, 1]] ∧ cfgT.codec.decompress [0, 1] = none ∧ DimOk (mk 2 2 0 [[0, 1]] []) := by
  decide

theorem witness_ZeroFramesAreLegal :
    DimOk (mk 2 2 0 [] []) ∧ (mk 2 2 0 [] []).inq = [] ∧
    hw.codec.decompress (hw.codec.compress []) = some [] :=
  ⟨by decide, rfl, hw.codec.law []⟩

theorem witness_ProcessingCommandsSucceedOrRaise : isProcessing .dec = true := by decide

/-- One command for each error it can report: 1, 2, 5 by XFWD; 3 by DEC of a stream of seven bytes. -/
theorem witness_ErrorsByCommand :
    isProcessing .xfwd = true ∧ isProcessing .dec = true ∧
    exec .xfwd (mk 1 1 0 [] []) = .next (mk 1 1 0x101 [] []) ∧
    exec .xfwd (mk 2 2 0 [[]] []) = .next (mk 2 2 0x202 [] []) ∧
    exec .xfwd (mk 2 2 0 [] []) = .next (mk 2 2 0x1005 [] []) ∧
    exec .dec (mk 2 2 0 [hw.codec.compress (List.replicate 7 1)] []) = .next (mk 2 2 0x403 [] []) := by
  refine ⟨by decide, by decide, rfl, rfl, rfl, ?_⟩
  simp only [exec, execDec, decIn, decChecked, mk, takeOne, decompressed, hw.codec.law]
  rfl

theorem witness_ProcessingReadsOnlyDimsAndInq :
    isProcessing .dfwd = true ∧ usesDims .dfwd = false ∧
    exec .dfwd (mk 3 0 0 [[5], [7]] []) = .next (mk 3 0 0 [] [[2]]) ∧
    exec .dfwd (mk 2 2 0x1005 [[5], [7]] [[1]]) = .next (mk 2 2 0x1000 [] [[2]]) :=
  ⟨by decide, by decide, rfl, rfl⟩

theorem witness_DeltaCodecIsLossless :
    ([0x0A, 0xC8, 0xFF, 0x00] : Buffer).length = ([0x14, 0x64, 0x00, 0xFF] : Buffer).length := by decide

/-- V2: the colour (200, 100, 50). -/
theorem witness_SolidColourHasNoArtifacts :
    DimOk (mk 2 2 0 [] []) ∧ rgbToYuv8 hwCoefFwd 200 100 50 = (124, 83, 181) ∧
    (mk 2 2 0 [[200, 100, 50, 200, 100, 50, 200, 100, 50, 200, 100, 50]] []).inq =
      [(List.replicate 4 [200, 100, 50]).flatten] := by decide

/-- The bounds of both ranges: 0 and 2552450. -/
theorem witness_ForwardStoreNeverWraps :
    (trunc8 0 10000).toNat = 0 ∧ (trunc8 2552450 10000).toNat = 255 ∧
    (trunc8 (2552450 + 2552450 + 2552450 + 2552450) 40000).toNat = 255 := by decide

/-- A block where the two readings differ (the U values of V20: 121 against 120). -/
theorem witness_AveragingModesDifferByAtMostOne :
    (blockMean .meanThenTruncate 10000 849050 435950 2424950 1149950).toNat = 121 ∧
    (blockMean .truncateThenMean 10000 849050 435950 2424950 1149950).toNat = 120 := by decide

theorem witness_EncoderOutputHoldsWholeFrames :
    exec .enc (mk 2 2 0 [] []) = .next (mk 2 2 0 [] [hw.codec.compress []]) ∧
    (mk 2 2 0 [] [hw.codec.compress []]).outq = [hw.codec.compress []] := ⟨rfl, rfl⟩

theorem witness_DecodeRestoresEveryEncodedFrame :
    DimOk (mk 2 2 0 [frameA, frameB] []) ∧
    ∀ raw ∈ (mk 2 2 0 [frameA, frameB] []).inq, raw.length = rawSize (mk 2 2 0 [frameA, frameB] []) := by decide

theorem witness_ResetValues :
    usesDims .enc = true ∧ State.reset.w = 0 ∧ (mk 2 0 0 [frameA] []).h = 0 ∧ (mk 0 2 0 [] []).w = 0 := by decide

/-- A step from a state with an error shown, to another one with the invariant at work. -/
theorem witness_EveryStepKeepsTheInvariant :
    Inv State.reset ∧ step (load [0x10000000] State.reset) =
      .next { mk 0 0 0x101 [] [] with moves := [.word 0x10000000], pos := 1 } := by
  refine ⟨⟨⟨?_, by decide, by decide⟩, fun _ _ => rfl⟩, rfl⟩
  intro n _; simp [State.reset]

theorem witness_WhoWritesWhat :
    exec (.setw 3) State.reset = .next (mk 3 0 0 [] []) ∧
    exec .clre (mk 0 0 0x101 [] []) = .next State.reset ∧
    exec .newb State.reset = .next (mk 0 0 0 [[]] []) ∧
    exec .clri (mk 0 0 0 [[1]] [[2]]) = .next (mk 0 0 0 [] [[2]]) ∧
    exec .clro (mk 0 0 0 [[1]] [[2]]) = .next (mk 0 0 0 [[1]] []) := ⟨rfl, rfl, rfl, rfl, rfl⟩

theorem witness_StickyFlagsStayUntilCleared :
    step (load [0x07000000] (mk 0 0 0x100 [] [])) =
      .next { mk 0 0 0 [] [] with moves := [.word 0x07000000], pos := 1 } ∧
    (0x100 : Word).getLsbD 8 = true ∧ (0 : Word).getLsbD 8 = false := ⟨rfl, by decide, by decide⟩

/-- The first number that is no register. -/
theorem witness_RegisterReads :
    3 ≤ 3 ∧ readReg 3 State.reset = .error (.noSuchRegister 3) := ⟨by decide, rfl⟩

/-- The last byte, the first index after it, and the first buffer number after the last. -/
theorem witness_OutqReads :
    (mk 0 0 0 [] [[7, 8]]).outq[0]? = some [7, 8] ∧ ([7, 8] : Buffer)[1]? = some 8 ∧
    ([7, 8] : Buffer).length ≤ 2 ∧ (mk 0 0 0 [] [[7, 8]]).outq.length ≤ 1 := by decide

/-- Both sides of each limit. -/
theorem witness_AssemblerNeverTruncates :
    okWords (assembleItem (.setw 65535)) = some [0x0100FFFF] ∧ okWords (assembleItem (.seth 65536)) = none ∧
    okWords (assembleItem (.putb 255)) = some [0x030000FF] ∧ okWords (assembleItem (.putb 256)) = none := by decide

/-- The two forms of INQ that `.rep` meets, and its count at 0 and above. -/
theorem witness_PseudoInstructionsDoWhatTheyStandFor :
    (mk 0 0 0 [[9]] []).inq = [] ++ [[9]] ∧ State.reset.inq = [] ∧
    okWords (assembleItem (.rep 0 7)) = some [] ∧
    okWords (assembleItem (.rep 2 7)) = some [0x03000007, 0x03000007] := by decide

/-- A capacity of one byte in one buffer holds PUTB's result, a capacity of nothing does not. -/
theorem witness_FiniteCapacityOnlyRefuses :
    putbIn { hw with qcap := none, alen := none } 7 State.reset = .next (mk 0 0 0 [[7]] []) ∧
    fits { hw with qcap := some ⟨1, 1⟩ } (mk 0 0 0 [[7]] []) = true ∧
    fits { hw with qcap := some ⟨0, 0⟩ } (mk 0 0 0 [[7]] []) = false ∧
    fits { hw with alen := some 0 } (mk 0 0 0 [[7]] []) = false := ⟨rfl, by decide, by decide, by decide⟩

end Sys2Proof.Tests
end

section
namespace Sys2Proof.Proofs

open Sys2Proof.Machine

/-- Settles O9. The statement's two record expressions are the model's `nextMove` and `advance` (rule R11), so the
step's own equation for a word that decodes to a command is the claim. -/
theorem stepRunsTheDecodedCommand : Obligations.StepRunsTheDecodedCommand := by
  intro s w i hmove hdecode
  have hnext : s.nextMove = some (.word w) := hmove
  exact step_command hnext hdecode

end Sys2Proof.Proofs
end

section
/-! What a command that answers a next state did to the state, said once, and the family's statements on the state
from it (10_state.md). -/
namespace Sys2Proof.Proofs

open Sys2Proof.Machine Sys2Proof.Safety

/-! ### What a command can do to the state -/

/-- PUTB always fits this hardware's queues (rule R73). -/
theorem exec_putb (b : Byte) (s : State) : exec (.putb b) s = .next (s.setInq (appendByte b s.inq)) := deliver_hw _

/-- NEWB always fits this hardware's queues (rule R74). -/
theorem exec_newb (s : State) : exec .newb s = .next (s.setInq (appendBuffer s.inq)) := deliver_hw _

/-- Everything that executing a command in the state `s` can leave (`exec_effect`): each control command its own
write, a processing command an error entry (rule R176) or the end of a success (rule R80). -/
inductive Effect (s : State) : Instr → State → Prop
  | nop : Effect s .nop s
  | setw (v : Dim) : Effect s (.setw v) (s.setW v)
  | seth (v : Dim) : Effect s (.seth v) (s.setH v)
  | putb (b : Byte) : Effect s (.putb b) (s.setInq (appendByte b s.inq))
  | newb : Effect s .newb (s.setInq (appendBuffer s.inq))
  | clri : Effect s .clri (s.setInq [])
  | clro : Effect s .clro (s.setOutq [])
  | clre : Effect s .clre (s.setStatus 0)
  | srst : Effect s .srst s.resetItems
  | error {i : Instr} (hi : isProcessing i = true) (e : ErrCode) : Effect s i (s.raise e)
  | success {i : Instr} (hi : isProcessing i = true) (res : Queue) : Effect s i (s.succeed res)

/-- A command that answers a next state had one of the effects. -/
theorem exec_effect {i : Instr} {s t : State} (h : exec i s = .next t) : Effect s i t := by
  have processed (hi : isProcessing i = true) : Effect s i t := by
    rw [exec_processing i hi] at h
    obtain ⟨e, -, he⟩ | ⟨res, -, he⟩ := processing_hw_cases (checkedOf hw i s.w.toNat s.h.toNat s.inq) s
    · rw [he] at h; cases h; exact .error hi e
    · rw [he] at h; cases h; exact .success hi res
  cases i with
  | nop => cases h; exact .nop
  | setw v => cases h; exact .setw v
  | seth v => cases h; exact .seth v
  | putb b => rw [exec_putb] at h; cases h; exact .putb b
  | newb => rw [exec_newb] at h; cases h; exact .newb
  | clri => cases h; exact .clri
  | clro => cases h; exact .clro
  | clre => cases h; exact .clre
  | srst => cases h; exact .srst
  | xfwd | xinv | dfwd | dinv | cmpr | dcmp | enc | dec => exact processed rfl

/-! ### The invariant -/

/-- Cleared STATUS meets the invariant: nothing is reserved, shown or stale. -/
theorem inv_of_status_zero {s : State} (h : s.status = 0) : Inv s := by
  refine ⟨⟨?_, ?_, ?_⟩, ?_⟩ <;> simp [NoStaleOutput, h]

/-- The invariant reads STATUS and OUTQ only, and emptying OUTQ keeps it. -/
theorem inv_of_same_status {s t : State} (hs : Inv s) (hstatus : t.status = s.status)
    (houtq : t.outq = s.outq ∨ t.outq = []) : Inv t := by
  obtain ⟨hflags, hstale⟩ := hs
  constructor
  · simpa only [StatusInv, hstatus] using hflags
  · intro herr hill
    rw [hstatus] at herr hill
    obtain hsame | hempty := houtq
    · rw [hsame, hstale herr hill]
    · exact hempty

/-- An error writes a code of at most 5 and its own flag, one of the bits 8 to 12, so no reserved bit (rule R14). -/
theorem statusInv_of_raise {s t : State} (e : ErrCode) (hs : StatusInv s)
    (ht : t.status = statusRaise e s.status) : StatusInv t := by
  obtain ⟨hreserved, -, -⟩ := hs
  have hpos := e.code_pos
  have hle := e.code_le
  simp only [StatusInv, ht, statusRaise_low]
  refine ⟨fun n hn => ?_, hle, fun _ => ?_⟩
  · rw [statusRaise_bit e _ n (by omega), hreserved n hn]
    simp only [Bool.false_or, decide_eq_false_iff_not]
    omega
  · rw [statusRaise_bit e _ _ (by omega)]
    simp

/-- A success clears ERR and leaves the bits above it (rule R15 (a)). -/
theorem inv_of_success {s t : State} (hs : Inv s) (ht : t.status = statusSuccess s.status) : Inv t := by
  obtain ⟨⟨hreserved, -, -⟩, -⟩ := hs
  have herr : t.status.toNat % 16 = 0 := by rw [ht, statusSuccess_low]
  refine ⟨⟨fun n hn => ?_, by omega, fun h => absurd herr h⟩, fun h => absurd herr h⟩
  rw [ht, statusSuccess_bit _ n (by omega), hreserved n hn]

/-- Every command keeps the invariant. -/
theorem inv_of_effect {i : Instr} {s t : State} (h : Effect s i t) (hs : Inv s) : Inv t := by
  cases h with
  | nop => exact hs
  | setw | seth | putb | newb | clri => exact inv_of_same_status hs rfl (.inl rfl)
  | clro => exact inv_of_same_status hs rfl (.inr rfl)
  | clre | srst => exact inv_of_status_zero rfl
  | error _ e => exact ⟨statusInv_of_raise e hs.1 rfl, fun _ _ => rfl⟩
  | success _ res => exact inv_of_success hs rfl

/-- Error entry for an ILLEGAL word keeps OUTQ, and the error it shows is the one that may stand beside output
(rules R17 and R177). -/
theorem inv_illegalWord {s : State} (hs : Inv s) : Inv s.illegalWord :=
  ⟨statusInv_of_raise .illegalCommand hs.1 rfl, fun _ hill => absurd (statusRaise_low .illegalCommand s.status) hill⟩

/-- Settles O46: a step is the reset input, an ILLEGAL word or a command, and each keeps the invariant. -/
theorem everyStepKeepsTheInvariant : Obligations.EveryStepKeepsTheInvariant := by
  intro s t hs hstep
  have hadvance : Inv s.advance := inv_of_same_status hs rfl (.inl rfl)
  obtain ⟨-, rfl⟩ | ⟨w, why, -, -, rfl⟩ | ⟨w, i, -, -, hexec⟩ := step_cases hstep
  · exact inv_of_status_zero rfl
  · exact inv_illegalWord hadvance
  · exact inv_of_effect (exec_effect hexec) hadvance

/-- Settles O45: STATUS is 0 at reset. -/
theorem invariantAtReset : Obligations.InvariantAtReset := inv_of_status_zero rfl

/-! ### Who writes what -/

/-- Settles O47, by the effects a command can have. -/
theorem whoWritesWhat : Obligations.WhoWritesWhat := by
  intro i s t h
  obtain ⟨hmoves, hpos⟩ := exec_keeps_moves h
  cases exec_effect h with
  | nop => simp
  | setw | seth => simp
  | putb | newb => simp
  | clri | clro | clre => simp
  | srst => simp
  | error hi e => simp [hi]
  | success hi res => simp [hi]

/-! ### Sticky flags -/

/-- Only CLRE and SRST can clear a set bit of STATUS above ERR. -/
theorem effect_clears_flag {i : Instr} {s t : State} {n : Nat} (h : Effect s i t) (hn : 4 ≤ n)
    (hset : s.status.getLsbD n = true) (hclear : t.status.getLsbD n = false) : i = .clre ∨ i = .srst := by
  cases h with
  | clre => exact .inl rfl
  | srst => exact .inr rfl
  | error _ e => simp [statusRaise_bit e _ n hn, hset] at hclear
  | success => simp [statusSuccess_bit _ n hn, hset] at hclear
  | nop | setw | seth | putb | newb | clri | clro => simp [hset] at hclear

/-- Format N leaves no bit of the word free (rules R51 and R55). -/
theorem encode_of_decodeN {i j : Instr} {op : Byte} {w : Word} (hj : encode j = wordN op) (hop : opField w = op)
    (h : decodeN j w = .command i) : encode i = w := by
  obtain ⟨harg, hij⟩ | ⟨-, hill⟩ := (decodeN_iff j w _).1 h
  · cases hij
    apply BitVec.eq_of_toNat_eq
    rw [hj, ← hop, wordN_toNat, opField_toNat]
    omega
  · cases hill

/-- Format I16 leaves only the immediate free (rules R51 and R55). -/
theorem encode_of_decodeI16 {i : Instr} {f : Dim → Instr} {op : Byte} {w : Word}
    (hf : ∀ v, encode (f v) = wordI16 op v) (hop : opField w = op) (h : decodeI16 f w = .command i) :
    encode i = w := by
  obtain ⟨harg, hiv⟩ | ⟨-, hill⟩ := (decodeI16_iff f w _).1 h
  · cases hiv
    apply BitVec.eq_of_toNat_eq
    rw [hf, ← hop, wordI16_toNat, opField_toNat, BitVec.toNat_ofNat]
    omega
  · cases hill

/-- Format I8 leaves only the immediate free (rules R51 and R55). -/
theorem encode_of_decodeI8 {i : Instr} {f : Byte → Instr} {op : Byte} {w : Word}
    (hf : ∀ v, encode (f v) = wordI8 op v) (hop : opField w = op) (h : decodeI8 f w = .command i) :
    encode i = w := by
  obtain ⟨harg, hiv⟩ | ⟨-, hill⟩ := (decodeI8_iff f w _).1 h
  · cases hiv
    apply BitVec.eq_of_toNat_eq
    rw [hf, ← hop, wordI8_toNat, opField_toNat, BitVec.toNat_ofNat]
    omega
  · cases hill

/-- A word that decodes to a command is that command's word. -/
theorem encode_of_decode {w : Word} {i : Instr} (h : decode w = .command i) : encode i = w := by
  rcases decode_cases w with ⟨hop, hd⟩ | ⟨hop, hd⟩ | ⟨hop, hd⟩ | ⟨hop, hd⟩ | ⟨hop, hd⟩ | ⟨hop, hd⟩ | ⟨hop, hd⟩ |
    ⟨hop, hd⟩ | ⟨hop, hd⟩ | ⟨hop, hd⟩ | ⟨hop, hd⟩ | ⟨hop, hd⟩ | ⟨hop, hd⟩ | ⟨hop, hd⟩ | ⟨hop, hd⟩ | ⟨hop, hd⟩ |
    ⟨hop, hd⟩ | ⟨hill, -⟩
  on_goal 18 => rw [hill] at h; cases h
  all_goals rw [hd] at h
  -- SETW and SETH are the second and third opcode of the table, PUTB the fourth; the others have format N.
  on_goal 2 => exact encode_of_decodeI16 (fun _ => rfl) hop h
  on_goal 2 => exact encode_of_decodeI16 (fun _ => rfl) hop h
  on_goal 2 => exact encode_of_decodeI8 (fun _ => rfl) hop h
  all_goals exact encode_of_decodeN rfl hop h

/-- Settles O48: of the commands only CLRE and SRST clear a flag, and each has one word. -/
theorem stickyFlagsStayUntilCleared : Obligations.StickyFlagsStayUntilCleared := by
  intro s t n hstep hn hset hclear
  obtain ⟨hmove, -⟩ | ⟨w, why, -, -, rfl⟩ | ⟨w, i, hmove, hdecode, hexec⟩ := step_cases hstep
  · exact .inl hmove
  · simp [statusRaise_bit _ _ n hn, hset] at hclear
  · have hword : encode i = w := encode_of_decode hdecode
    obtain rfl | rfl := effect_clears_flag (exec_effect hexec) hn hset hclear <;> subst hword
    · exact .inr (.inl hmove)
    · exact .inr (.inr hmove)

/-! ### What a processing command reads -/

/-- The checks and the result of a command that does not use the dimensions are those of any other dimensions. -/
theorem checkedOf_congr (cfg : Config) {i : Instr} {w h w' h' : Nat}
    (hdims : usesDims i = true → w = w' ∧ h = h') (inq : Queue) :
    checkedOf cfg i w h inq = checkedOf cfg i w' h' inq := by
  by_cases hi : usesDims i = true
  · obtain ⟨rfl, rfl⟩ := hdims hi
    rfl
  · cases i with
    | xfwd | xinv | enc | dec => exact absurd rfl hi
    | dfwd | dinv | cmpr | dcmp => rfl
    | nop | setw | seth | putb | newb | clri | clro | clre | srst => rfl

/-- Settles O33: the two states give the same `checkedOf`, and the processing frame writes INQ, OUTQ and ERR from
it alone. -/
theorem processingReadsOnlyDimsAndInq : Obligations.ProcessingReadsOnlyDimsAndInq := by
  intro i s s' t t' hi hdims hinq ht ht'
  have hchecked : checkedOf hw i s.w.toNat s.h.toNat s.inq = checkedOf hw i s'.w.toNat s'.h.toNat s'.inq := by
    rw [hinq]
    refine checkedOf_congr hw (fun hu => ?_) _
    obtain ⟨hwidth, hheight⟩ := hdims hu
    exact ⟨congrArg _ hwidth, congrArg _ hheight⟩
  rw [exec_processing i hi, hchecked] at ht
  rw [exec_processing i hi] at ht'
  cases hc : checkedOf hw i s'.w.toNat s'.h.toNat s'.inq with
  | error e =>
    rw [hc, processing_hw_error] at ht ht'
    cases ht
    cases ht'
    simp [statusRaise_low]
  | ok res =>
    rw [hc, processing_hw_ok] at ht ht'
    cases ht
    cases ht'
    simp [statusSuccess_low]

/-! ### Reset values -/

theorem isProcessing_of_usesDims {i : Instr} (h : usesDims i = true) : isProcessing i = true := by
  cases i with
  | xfwd | xinv | enc | dec => rfl
  | dfwd | dinv | cmpr | dcmp => cases h
  | nop | setw | seth | putb | newb | clri | clro | clre | srst => cases h

/-- Bad dimensions are the first error of every command that uses them (rules R171 and R178). -/
theorem checkedOf_bad_dims (cfg : Config) {i : Instr} (hi : usesDims i = true) {w h : Nat}
    (hd : ¬(0 < w ∧ 0 < h ∧ w % 2 = 0 ∧ h % 2 = 0)) (inq : Queue) :
    checkedOf cfg i w h inq = .error .dimension := by
  cases i with
  | xfwd | xinv | enc | dec => exact checkDims_bad hd _
  | dfwd | dinv | cmpr | dcmp => cases hi
  | nop | setw | seth | putb | newb | clri | clro | clre | srst => cases hi

/-- A command that uses the dimensions raises DimensionError when they are bad. -/
theorem endsIn_of_bad_dims {i : Instr} {s : State} (hi : usesDims i = true) (hd : ¬DimOk s) : EndsIn i 1 s := by
  refine ⟨s.raise .dimension, ?_, raise_raised .dimension s⟩
  rw [exec_processing i (isProcessing_of_usesDims hi), checkedOf_bad_dims hw hi hd, processing_hw_error]

/-- Settles O44: a dimension of 0 is a bad one. -/
theorem resetValues : Obligations.ResetValues := by
  refine ⟨rfl, rfl, rfl, rfl, rfl, fun s => ⟨s.resetItems, rfl, rfl, rfl, rfl, rfl, rfl⟩, ?_⟩
  intro i s hi hzero
  refine endsIn_of_bad_dims hi fun ⟨hwidth, hheight, _⟩ => ?_
  obtain h | h := hzero <;> simp [h] at hwidth hheight

end Sys2Proof.Proofs
end

section
/-! What the meanings of the processing commands give, in the words of the statements: the outcome of a command from
its checks, the bytes of the planar frames (20_memory.md section 1), the delta frames and the stream of ENC. -/
namespace Sys2Proof.Proofs

open Sys2Proof.Machine Sys2Proof.Safety

/-! ### Outcomes from the checks -/

/-- A failing check is the error the command ends in (rules R80 and R176). -/
theorem endsIn_of_checkedOf {i : Instr} {s : State} {e : ErrCode} (hi : isProcessing i = true)
    (h : checkedOf hw i s.w.toNat s.h.toNat s.inq = .error e) : EndsIn i e.code.toNat s :=
  ⟨s.raise e, by rw [exec_processing i hi, h, processing_hw_error], raise_raised e s⟩

/-- When every check passes the result is what the command leaves in OUTQ (rule R80). -/
theorem yields_of_checkedOf {i : Instr} {s : State} {res : Queue} (hi : isProcessing i = true)
    (h : checkedOf hw i s.w.toNat s.h.toNat s.inq = .ok res) : Yields i res s :=
  ⟨s.succeed res, by rw [exec_processing i hi, h, processing_hw_ok], succeed_succeeded res s⟩

/-! ### Stored samples -/

/-- A number in range is stored as its integer part (rule R93). -/
theorem trunc8_toNat {n : Int} {m d : Nat} (hn : n = m) (hm : m < 256 * d) : (trunc8 n d).toNat = m / d := by
  have hlt : m / d < 2 ^ 8 := Nat.div_lt_of_lt_mul (by rwa [Nat.mul_comm])
  rw [trunc8, hn, ← Int.ofNat_tdiv, BitVec.ofInt_natCast, BitVec.toNat_ofNat, Nat.mod_eq_of_lt hlt]

theorem byteAt_of_getElem? {buf : Buffer} {i : Nat} {x : Byte} (h : buf[i]? = some x) : byteAt buf i = x := by
  rw [byteAt, List.getD_eq_getElem?_getD, h, Option.getD_some]

/-- The transcoder reads at a pixel the three bytes that the pixel has (rule R30). -/
theorem atPixel_of_hasPixel {raw : Buffer} {w row col r g b : Nat} (h : HasPixel raw w row col r g b) :
    ∃ x y z : Byte, x.toNat = r ∧ y.toNat = g ∧ z.toNat = b ∧ ∀ f, atPixel f raw w row col = f x y z := by
  obtain ⟨⟨x, hx, hr⟩, ⟨y, hy, hg⟩, ⟨z, hz, hb⟩⟩ := h
  refine ⟨x, y, z, hr, hg, hb, fun f => ?_⟩
  rw [atPixel, byteAt_of_getElem? hx, byteAt_of_getElem? hy, byteAt_of_getElem? hz]

/-- The luma byte of a pixel (rule R110). -/
theorem lumaAt_hw_toNat {raw : Buffer} {w row col r g b : Nat} (h : HasPixel raw w row col r g b) :
    (lumaAt hwCoefFwd raw w row col).toNat = (2990 * r + 5870 * g + 1140 * b) / 10000 := by
  obtain ⟨x, y, z, rfl, rfl, rfl, hat⟩ := atPixel_of_hasPixel h
  refine trunc8_toNat ?_ (d := 10000) (by omega)
  rw [hat]
  simp only [yNum, hwCoefFwd]
  omega

/-- A chroma byte is the mean of the block's four values, truncated once (rule R111). -/
theorem chromaAt_hw (f : Byte → Byte → Byte → Int) (raw : Buffer) (w i j : Nat) :
    chromaAt .meanThenTruncate 10000 f raw w i j =
      trunc8 (atPixel f raw w (2 * i) (2 * j) + atPixel f raw w (2 * i) (2 * j + 1) +
        atPixel f raw w (2 * i + 1) (2 * j) + atPixel f raw w (2 * i + 1) (2 * j + 1)) 40000 := rfl

/-- The U byte and the V byte of a block (rule R111): the subtracted terms never exceed the offset, and the means are
below 256. -/
theorem chromaAt_hw_toNat {raw : Buffer} {w i j r0 g0 b0 r1 g1 b1 r2 g2 b2 r3 g3 b3 : Nat}
    (h0 : HasPixel raw w (2 * i) (2 * j) r0 g0 b0) (h1 : HasPixel raw w (2 * i) (2 * j + 1) r1 g1 b1)
    (h2 : HasPixel raw w (2 * i + 1) (2 * j) r2 g2 b2) (h3 : HasPixel raw w (2 * i + 1) (2 * j + 1) r3 g3 b3) :
    (chromaAt .meanThenTruncate 10000 (uNum hwCoefFwd) raw w i j).toNat =
      (4490 * (b0 + b1 + b2 + b3) + 4 * 1280000 - 1690 * (r0 + r1 + r2 + r3) - 3310 * (g0 + g1 + g2 + g3))
        / 40000 ∧
    (chromaAt .meanThenTruncate 10000 (vNum hwCoefFwd) raw w i j).toNat =
      (4990 * (r0 + r1 + r2 + r3) + 4 * 1280000 - 4180 * (g0 + g1 + g2 + g3) - 813 * (b0 + b1 + b2 + b3))
        / 40000 := by
  obtain ⟨x0, y0, z0, rfl, rfl, rfl, hat0⟩ := atPixel_of_hasPixel h0
  obtain ⟨x1, y1, z1, rfl, rfl, rfl, hat1⟩ := atPixel_of_hasPixel h1
  obtain ⟨x2, y2, z2, rfl, rfl, rfl, hat2⟩ := atPixel_of_hasPixel h2
  obtain ⟨x3, y3, z3, rfl, rfl, rfl, hat3⟩ := atPixel_of_hasPixel h3
  simp only [chromaAt_hw, hat0, hat1, hat2, hat3]
  constructor
  · refine trunc8_toNat ?_ (by omega)
    simp only [uNum, hwCoefFwd]
    omega
  · refine trunc8_toNat ?_ (by omega)
    simp only [vNum, hwCoefFwd]
    omega

/-! ### Planar frames and delta frames -/

/-- XFWD's function gives the PlanarYUVFrame of every RawFrame at legal dimensions (rules R31, R110 and R111). -/
theorem transcodeFwd_isPlanarOf (raw : Buffer) {w h : Nat} (hw2 : w % 2 = 0) (hh2 : h % 2 = 0) :
    IsPlanarOf w h raw (transcodeFwd hw raw w h) := by
  refine ⟨by rw [transcodeFwd_length hw raw hw2 hh2, frameLen_eq hw2 hh2], ?_, ?_⟩
  · intro row col r g b hrow hcol hpixel
    exact ⟨_, transcodeFwd_luma hw raw hrow hcol, lumaAt_hw_toNat hpixel⟩
  · intro i j r0 g0 b0 r1 g1 b1 r2 g2 b2 r3 g3 b3 hi hj h0 h1 h2 h3
    obtain ⟨hu, hv⟩ := chromaAt_hw_toNat h0 h1 h2 h3
    exact ⟨⟨_, transcodeFwd_u hw raw hi hj, hu⟩, ⟨_, transcodeFwd_v hw raw hw2 hh2 hi hj, hv⟩⟩

/-- DFWD's function gives the byte-wise difference of two buffers of one length (rule R130). -/
theorem deltaFwd_isDeltaOf {previous current : Buffer} (h : previous.length = current.length) :
    IsDeltaOf previous current (deltaFwd previous current) := by
  refine ⟨deltaFwd_length h, ?_⟩
  rintro k _ _ ⟨x, hx, rfl⟩ ⟨y, hy, rfl⟩
  refine ⟨y - x, deltaFwd_get previous current k x y hx hy, ?_⟩
  rw [BitVec.toNat_sub]
  omega

/-! ### Slices of the stream -/

theorem slice_append_left {n : Nat} {a : Buffer} (ha : a.length = n) (b : Buffer) : slice (a ++ b) 0 n = a := by
  rw [slice, List.take_left' ha, List.drop_zero]

theorem slice_append_right {n : Nat} {a : Buffer} (ha : a.length = n) (b : Buffer) (i j : Nat) :
    slice (a ++ b) (n + i) (n + j) = slice b i j := by
  rw [← ha, slice, List.take_length_add_append, List.drop_length_add_append, slice]

/-- After a frame `p`, the k-th delta frame stands at the k-th place (rule R36). -/
theorem slice_deltaFrames {n k : Nat} {p previous current : Buffer} {q : Queue} (hp : p.length = n)
    (hq : ∀ b ∈ q, b.length = n) (hprevious : (p :: q)[k]? = some previous) (hcurrent : q[k]? = some current) :
    slice (deltaFrames p q) (k * n) ((k + 1) * n) = deltaFwd previous current := by
  induction q generalizing p k with
  | nil => simp at hcurrent
  | cons c q ih =>
    have hc : c.length = n := hq c List.mem_cons_self
    have hdelta : (deltaFwd p c).length = n := by rw [deltaFwd_length (hp.trans hc.symm), hc]
    cases k with
    | zero =>
      cases hprevious
      cases hcurrent
      rw [Nat.zero_mul, Nat.zero_add, Nat.one_mul]
      exact slice_append_left hdelta _
    | succ k =>
      rw [deltaFrames, Nat.succ_mul k, Nat.succ_mul (k + 1), Nat.add_comm _ n, Nat.add_comm _ n,
        slice_append_right hdelta]
      exact ih hc (fun b hb => hq b (List.mem_cons_of_mem c hb)) hprevious hcurrent

/-- The stream starts with the keyframe (rule R36). -/
theorem slice_streamOf_zero {n : Nat} {key : Buffer} {q : Queue} (hq : ∀ b ∈ q, b.length = n)
    (hkey : q[0]? = some key) : slice (streamOf q) 0 n = key := by
  cases q with
  | nil => cases hkey
  | cons b q =>
    cases hkey
    exact slice_append_left (hq key List.mem_cons_self) _

/-- Every later frame of the stream is the difference from the frame just before it (rules R36 and R150). -/
theorem slice_streamOf_succ {n k : Nat} {previous current : Buffer} {q : Queue} (hq : ∀ b ∈ q, b.length = n)
    (hprevious : q[k]? = some previous) (hcurrent : q[k + 1]? = some current) :
    slice (streamOf q) ((k + 1) * n) ((k + 2) * n) = deltaFwd previous current := by
  cases q with
  | nil => cases hprevious
  | cons key q =>
    have hkey : key.length = n := hq key List.mem_cons_self
    rw [streamOf, Nat.succ_mul k, Nat.succ_mul (k + 1), Nat.add_comm _ n, Nat.add_comm _ n, slice_append_right hkey]
    exact slice_deltaFrames hkey (fun b hb => hq b (List.mem_cons_of_mem key hb)) hprevious hcurrent

end Sys2Proof.Proofs
end

section
/-! The family's statements on memory (20_memory.md): the compressed stream that ENC leaves, and the host's reads. -/
namespace Sys2Proof.Proofs

open Sys2Proof.Machine Sys2Proof.Safety

/-! ### ENC -/

/-- The planar frames of a queue of RawFrames, in its order (rule R150 step 1). -/
def planarFrames (w h : Nat) (q : Queue) : Queue := q.map fun raw => transcodeFwd hw raw w h

theorem planarFrames_length (w h : Nat) (q : Queue) : (planarFrames w h q).length = q.length := List.length_map ..

theorem planarFrames_getElem? {w h k : Nat} {q : Queue} {raw : Buffer} (hraw : q[k]? = some raw) :
    (planarFrames w h q)[k]? = some (transcodeFwd hw raw w h) := by
  rw [planarFrames, List.getElem?_map, hraw, Option.map_some]

/-- All planar frames have one length (rule R31). -/
theorem length_of_mem_planarFrames {w h : Nat} (hw2 : w % 2 = 0) (hh2 : h % 2 = 0) (q : Queue) :
    ∀ pl ∈ planarFrames w h q, pl.length = 3 * w * h / 2 := by
  intro pl hpl
  obtain ⟨raw, -, rfl⟩ := List.mem_map.1 hpl
  exact (transcodeFwd_isPlanarOf raw hw2 hh2).1

/-- One frame of another length fails the command (rule R151 check 2). -/
theorem encChecked_bad_length {w h : Nat} {q : Queue} {raw : Buffer}
    (hd : 0 < w ∧ 0 < h ∧ w % 2 = 0 ∧ h % 2 = 0) (hmem : raw ∈ q) (hlen : raw.length ≠ 3 * w * h) :
    encChecked hw w h q = .error .sizeMismatch := by
  rw [encChecked, checkDims_ok hd, checkAllLen_bad ⟨raw, hmem, by rwa [rawLen_eq]⟩]

/-- Legal dimensions and frames give the compression of the stream of their planar frames (rule R150). -/
theorem encChecked_ok {w h : Nat} {q : Queue} (hd : 0 < w ∧ 0 < h ∧ w % 2 = 0 ∧ h % 2 = 0)
    (hlen : ∀ raw ∈ q, raw.length = 3 * w * h) :
    encChecked hw w h q = .ok [hw.codec.compress (streamOf (planarFrames w h q))] := by
  rw [encChecked, checkDims_ok hd, checkAllLen_ok (by rwa [rawLen_eq])]
  rfl

/-- Settles O27: the frames are the planar frames of INQ, the stream is the one the Encoder builds from them. -/
theorem encOutcomes : Obligations.EncOutcomes := by
  refine ⟨by decide, fun s => ⟨endsIn_of_bad_dims rfl, fun raw hd hmem hlen => ?_, fun hd hlen => ?_⟩⟩
  · exact endsIn_of_checkedOf (e := .sizeMismatch) rfl (encChecked_bad_length hd hmem hlen)
  · have ⟨_, _, hw2, hh2⟩ := hd
    have hplanar := length_of_mem_planarFrames hw2 hh2 s.inq
    refine ⟨planarFrames s.w.toNat s.h.toNat s.inq, streamOf (planarFrames s.w.toNat s.h.toNat s.inq),
      planarFrames_length .., ?_, ?_, ?_, ?_, yields_of_checkedOf rfl (encChecked_ok hd hlen)⟩
    · intro k raw pl hraw hpl
      rw [planarFrames_getElem? hraw] at hpl
      cases hpl
      exact transcodeFwd_isPlanarOf raw hw2 hh2
    · rw [streamOf_length _ _ hplanar, planarFrames_length]
    · exact fun pl => slice_streamOf_zero hplanar
    · intro k previous current hprevious hcurrent
      rw [slice_streamOf_succ hplanar hprevious hcurrent]
      exact deltaFwd_isDeltaOf ((hplanar _ (List.mem_of_getElem? hprevious)).trans
        (hplanar _ (List.mem_of_getElem? hcurrent)).symm)

/-! ### The host's reads -/

/-- Numbers 3 and above do not exist (rule R37). -/
theorem readReg_of_three_le {n : Nat} (h : 3 ≤ n) (s : State) : readReg n s = .error (.noSuchRegister n) := by
  match n, h with
  | _ + 3, _ => rfl

/-- Settles O50: zero extension keeps the number a dimension register holds. -/
theorem registerReads : Obligations.RegisterReads := by
  intro s n
  rw [BitVec.ofNat_toNat, BitVec.ofNat_toNat]
  exact ⟨rfl, rfl, rfl, fun h => readReg_of_three_le h s⟩

section OutqRead

variable {s : State} {k : Nat}

theorem outqLength_inside {b : Buffer} (h : s.outq[k]? = some b) : outqLength k s = .ok b.length := by
  rw [outqLength, h]

theorem outqLength_outside (h : s.outq[k]? = none) : outqLength k s = .error .outqReadOutOfRange := by
  rw [outqLength, h]

theorem outqByte_inside {b : Buffer} {x : Byte} {i : Nat} (h : s.outq[k]? = some b) (hx : b[i]? = some x) :
    outqByte k i s = .ok x := by
  simp only [outqByte, h, hx]

theorem outqByte_past_end {b : Buffer} {i : Nat} (h : s.outq[k]? = some b) (hi : b[i]? = none) :
    outqByte k i s = .error .outqReadOutOfRange := by
  simp only [outqByte, h, hi]

theorem outqByte_outside (h : s.outq[k]? = none) (i : Nat) : outqByte k i s = .error .outqReadOutOfRange := by
  rw [outqByte, h]

end OutqRead

/-- Settles O51: an index is inside exactly when the list lookup answers. -/
theorem outqReads : Obligations.OutqReads := by
  refine fun s k i => ⟨rfl, fun b hb => ⟨outqLength_inside hb, fun x => outqByte_inside hb, fun hi => ?_⟩,
    fun hk => ?_⟩
  · exact outqByte_past_end hb (List.getElem?_eq_none hi)
  · have hnone := List.getElem?_eq_none hk
    exact ⟨outqLength_outside hnone, outqByte_outside hnone i⟩

end Sys2Proof.Proofs
end

section
/-! The family's statements on words and their decoding (30_encoding.md sections 1 to 5): each format's decoder on
each format's word, the decoder against the match and mask columns, and which words are illegal for which reason. -/
namespace Sys2Proof.Proofs

open Sys2Proof.Machine Sys2Proof.Safety Sys2Proof.Laws

/-! ### Decoding an encoded command -/

theorem decodeI16_wordI16 (f : Dim → Instr) (op : Byte) (v : Dim) :
    decodeI16 f (wordI16 op v) = .command (f v) := by
  have hv := v.isLt
  have himm : BitVec.ofNat 16 (wordI16 op v).toNat = v := by
    apply BitVec.eq_of_toNat_eq
    rw [BitVec.toNat_ofNat, wordI16_toNat]
    omega
  refine (decodeI16_iff f _ _).2 (.inl ⟨?_, by rw [himm]⟩)
  rw [wordI16_toNat]
  omega

theorem decodeI8_wordI8 (f : Byte → Instr) (op : Byte) (b : Byte) :
    decodeI8 f (wordI8 op b) = .command (f b) := by
  have hb := b.isLt
  have himm : BitVec.ofNat 8 (wordI8 op b).toNat = b := by
    apply BitVec.eq_of_toNat_eq
    rw [BitVec.toNat_ofNat, wordI8_toNat]
    omega
  refine (decodeI8_iff f _ _).2 (.inl ⟨?_, by rw [himm]⟩)
  rw [wordI8_toNat]
  omega

/-- The decoder of rule R56 undoes the encoder. A word of format N has no operand, so there the two are evaluated. -/
theorem decode_encode (i : Instr) : decode (encode i) = .command i := by
  cases i with
  | setw v => exact (decode_op01 _ (opField_wordI16 _ v)).trans (decodeI16_wordI16 .setw _ v)
  | seth v => exact (decode_op02 _ (opField_wordI16 _ v)).trans (decodeI16_wordI16 .seth _ v)
  | putb b => exact (decode_op03 _ (opField_wordI8 _ b)).trans (decodeI8_wordI8 .putb _ b)
  | nop | newb | clri | clro | clre | srst | xfwd | xinv | dfwd | dinv | cmpr | dcmp | enc | dec => decide

/-- The four bytes of a word at the front of a channel decode to a command exactly when the word does. -/
theorem decodeBytes_eq_command_iff (w : Word) (rest : List Byte) (i : Instr) :
    decodeBytes (bytesOfWord w ++ rest) = .command i rest ↔ decode w = .command i := by
  rw [decodeBytes_bytesOfWord]
  cases decode w with
  | command j => simp
  | illegal why => simp

/-- Settles O1, by the round trip of the word and the channel's decoder on a word's bytes. -/
theorem encodedCommandDecodesToItself : Obligations.EncodedCommandDecodesToItself :=
  fun i rest => ⟨decode_encode i, (decodeBytes_eq_command_iff _ rest i).2 (decode_encode i)⟩

/-- Settles O2: in a word that decodes, the opcode and the immediate are all its bits. -/
theorem commandHasOnlyOneWord : Obligations.CommandHasOnlyOneWord := fun _ _ => encode_of_decode

/-- Settles O6. The words are closed, so the decoder is evaluated on each. -/
theorem sampleWordsDecode : Obligations.SampleWordsDecode := by
  unfold Obligations.SampleWordsDecode
  decide

theorem bytesOfWord_toNat (w : Word) :
    (bytesOfWord w).map BitVec.toNat =
      [w.toNat % 256, w.toNat / 2 ^ 8 % 256, w.toNat / 2 ^ 16 % 256, w.toNat / 2 ^ 24] := by
  have htop : w.toNat / 2 ^ 24 % 256 = w.toNat / 2 ^ 24 := by have := w.isLt; omega
  simpa [bytesOfWord, BitVec.extractLsb'_toNat, Nat.shiftRight_eq_div_pow] using htop

/-- Settles O7. -/
theorem wordsAreLittleEndianOnAByteChannel : Obligations.WordsAreLittleEndianOnAByteChannel :=
  ⟨by decide, fun w rest => ⟨bytesOfWord_toNat w, decodeBytes_eq_command_iff w rest⟩⟩

/-! ### The match and mask columns -/

/-- Every command's word is covered by the command's row (rule R53). -/
theorem encodesRow (i : Instr) : EncodesRow.Statement i := by
  cases i with
  | nop => exact EncodesRow.nop
  | setw v => exact EncodesRow.setw v
  | seth v => exact EncodesRow.seth v
  | putb b => exact EncodesRow.putb b
  | newb => exact EncodesRow.newb
  | clri => exact EncodesRow.clri
  | clro => exact EncodesRow.clro
  | clre => exact EncodesRow.clre
  | srst => exact EncodesRow.srst
  | xfwd => exact EncodesRow.xfwd
  | xinv => exact EncodesRow.xinv
  | dfwd => exact EncodesRow.dfwd
  | dinv => exact EncodesRow.dinv
  | cmpr => exact EncodesRow.cmpr
  | dcmp => exact EncodesRow.dcmp
  | enc => exact EncodesRow.enc
  | dec => exact EncodesRow.dec

/-- A word agrees with its row's match column on the bits that the mask keeps. -/
theorem extract_of_covers {row : OpcodeRow} {w : Word} (h : row.covers w = true) (k n : Nat)
    (hmask : row.mask.extractLsb' k n = BitVec.allOnes n) : w.extractLsb' k n = row.value.extractLsb' k n := by
  have hvalue : w &&& row.mask = row.value := by simpa [OpcodeRow.covers] using h
  rw [← hvalue, BitVec.extractLsb'_and, hmask, BitVec.and_allOnes]

section Rows

variable {row : OpcodeRow} {w : Word} {op : Byte} (h : row.covers w = true)
include h

/-- A row of format N covers one word. -/
theorem eq_of_covers (hmask : row.mask = 0xFFFFFFFF) : w = row.value := by
  simpa using extract_of_covers h 0 32 (by rw [hmask]; rfl)

/-- A row of format I16 covers only words of that format. -/
theorem eq_wordI16_of_covers (hmask : row.mask = 0xFFFF0000) (hvalue : row.value = wordN op) :
    ∃ v, w = wordI16 op v := by
  have hhigh := congrArg BitVec.toNat (extract_of_covers h 16 16 (by rw [hmask]; rfl))
  rw [hvalue] at hhigh
  simp only [BitVec.extractLsb'_toNat, Nat.shiftRight_eq_div_pow, wordN_toNat] at hhigh
  refine ⟨BitVec.ofNat 16 w.toNat, BitVec.eq_of_toNat_eq ?_⟩
  rw [wordI16_toNat, BitVec.toNat_ofNat]
  omega

/-- A row of format I8 covers only words of that format. -/
theorem eq_wordI8_of_covers (hmask : row.mask = 0xFFFFFF00) (hvalue : row.value = wordN op) :
    ∃ b, w = wordI8 op b := by
  have hhigh := congrArg BitVec.toNat (extract_of_covers h 8 24 (by rw [hmask]; rfl))
  rw [hvalue] at hhigh
  simp only [BitVec.extractLsb'_toNat, Nat.shiftRight_eq_div_pow, wordN_toNat] at hhigh
  refine ⟨BitVec.ofNat 8 w.toNat, BitVec.eq_of_toNat_eq ?_⟩
  rw [wordI8_toNat, BitVec.toNat_ofNat]
  omega

end Rows

/-- A word that a row covers is the word of a command of that row (rule R53). -/
theorem encode_of_covers {w : Word} {k : Nat} {row : OpcodeRow} (hrow : opcodeRows[k]? = some row)
    (h : row.covers w = true) : ∃ i, w = encode i ∧ i.rowIndex = k := by
  match k, hrow with
  | 0, rfl => exact ⟨.nop, eq_of_covers h rfl, rfl⟩
  | 1, rfl =>
    obtain ⟨v, hw⟩ := eq_wordI16_of_covers (op := 0x01) h rfl (by decide)
    exact ⟨.setw v, hw, rfl⟩
  | 2, rfl =>
    obtain ⟨v, hw⟩ := eq_wordI16_of_covers (op := 0x02) h rfl (by decide)
    exact ⟨.seth v, hw, rfl⟩
  | 3, rfl =>
    obtain ⟨b, hw⟩ := eq_wordI8_of_covers (op := 0x03) h rfl (by decide)
    exact ⟨.putb b, hw, rfl⟩
  | 4, rfl => exact ⟨.newb, eq_of_covers h rfl, rfl⟩
  | 5, rfl => exact ⟨.clri, eq_of_covers h rfl, rfl⟩
  | 6, rfl => exact ⟨.clro, eq_of_covers h rfl, rfl⟩
  | 7, rfl => exact ⟨.clre, eq_of_covers h rfl, rfl⟩
  | 8, rfl => exact ⟨.srst, eq_of_covers h rfl, rfl⟩
  | 9, rfl => exact ⟨.xfwd, eq_of_covers h rfl, rfl⟩
  | 10, rfl => exact ⟨.xinv, eq_of_covers h rfl, rfl⟩
  | 11, rfl => exact ⟨.dfwd, eq_of_covers h rfl, rfl⟩
  | 12, rfl => exact ⟨.dinv, eq_of_covers h rfl, rfl⟩
  | 13, rfl => exact ⟨.cmpr, eq_of_covers h rfl, rfl⟩
  | 14, rfl => exact ⟨.dcmp, eq_of_covers h rfl, rfl⟩
  | 15, rfl => exact ⟨.enc, eq_of_covers h rfl, rfl⟩
  | 16, rfl => exact ⟨.dec, eq_of_covers h rfl, rfl⟩

/-- Settles O3: a command has one word, which its row covers, and a row covers only words of its command. -/
theorem wordIsCommandWhenItsRowCovers : Obligations.WordIsCommandWhenItsRowCovers := by
  refine ⟨rfl, fun w i hdecode => ?_, fun w k row hrow hcovers => ?_⟩
  · obtain ⟨row, hrow, hcovers, hop⟩ := encodesRow i
    rw [encode_of_decode hdecode] at hcovers hop
    exact ⟨row, hrow, hcovers, by rw [← hop, opField_toNat]⟩
  · obtain ⟨i, rfl, hk⟩ := encode_of_covers hrow hcovers
    exact ⟨i, decode_encode i, hk⟩

/-! ### Illegal words -/

/-- The opcodes of format N (rules R51 and R56). -/
def opcodesN : List Nat := [0x00, 0x04, 0x05, 0x06, 0x07, 0x0F, 0x10, 0x11, 0x20, 0x21, 0x30, 0x31, 0x40, 0x41]

/-- The opcodes of format I16 (rules R51 and R56). -/
def opcodesI16 : List Nat := [0x01, 0x02]

/-- An opcode of format N is decoded as that format. -/
theorem decode_of_mem_opcodesN {w : Word} (h : w.toNat / 2 ^ 24 ∈ opcodesN) : ∃ i, decode w = decodeN i w := by
  simp only [opcodesN, List.mem_cons, List.not_mem_nil, or_false] at h
  obtain h | h | h | h | h | h | h | h | h | h | h | h | h | h := h
  · exact ⟨_, decode_op00 w (opField_eq h)⟩
  · exact ⟨_, decode_op04 w (opField_eq h)⟩
  · exact ⟨_, decode_op05 w (opField_eq h)⟩
  · exact ⟨_, decode_op06 w (opField_eq h)⟩
  · exact ⟨_, decode_op07 w (opField_eq h)⟩
  · exact ⟨_, decode_op0F w (opField_eq h)⟩
  · exact ⟨_, decode_op10 w (opField_eq h)⟩
  · exact ⟨_, decode_op11 w (opField_eq h)⟩
  · exact ⟨_, decode_op20 w (opField_eq h)⟩
  · exact ⟨_, decode_op21 w (opField_eq h)⟩
  · exact ⟨_, decode_op30 w (opField_eq h)⟩
  · exact ⟨_, decode_op31 w (opField_eq h)⟩
  · exact ⟨_, decode_op40 w (opField_eq h)⟩
  · exact ⟨_, decode_op41 w (opField_eq h)⟩

/-- An opcode of format I16 is decoded as that format. -/
theorem decode_of_mem_opcodesI16 {w : Word} (h : w.toNat / 2 ^ 24 ∈ opcodesI16) :
    ∃ f, decode w = decodeI16 f w := by
  simp only [opcodesI16, List.mem_cons, List.not_mem_nil, or_false] at h
  obtain h | h := h
  · exact ⟨_, decode_op01 w (opField_eq h)⟩
  · exact ⟨_, decode_op02 w (opField_eq h)⟩

/-- The one opcode of format I8 is PUTB's. -/
theorem decode_of_opcode_three {w : Word} (h : w.toNat / 2 ^ 24 = 0x03) : decode w = decodeI8 .putb w :=
  decode_op03 w (opField_eq h)

/-- Any other opcode is reserved (rule R54). -/
theorem decode_reserved {w : Word} (hN : w.toNat / 2 ^ 24 ∉ opcodesN) (hI16 : w.toNat / 2 ^ 24 ∉ opcodesI16)
    (hI8 : w.toNat / 2 ^ 24 ≠ 0x03) : decode w = .illegal .reservedOpcode := by
  rw [← opField_toNat] at hN hI16 hI8
  simp only [opcodesN, opcodesI16, List.mem_cons, List.not_mem_nil, or_false, not_or] at hN hI16
  simp [decode, ← BitVec.toNat_inj, hN, hI16, hI8]

/-- In format N the word is illegal exactly when `arg` is not 0; the reason is never the opcode. -/
theorem decodeN_eq_illegal_iff (i : Instr) (w : Word) (why : Illegal) :
    decodeN i w = .illegal why ↔ w.toNat % 2 ^ 24 ≠ 0 ∧ why = .mustBeZero := by
  simp [decodeN_iff]

/-- In format I16 the word is illegal exactly when `arg[23:16]` is not 0; the reason is never the opcode. -/
theorem decodeI16_eq_illegal_iff (f : Dim → Instr) (w : Word) (why : Illegal) :
    decodeI16 f w = .illegal why ↔ w.toNat % 2 ^ 24 / 2 ^ 16 ≠ 0 ∧ why = .mustBeZero := by
  have harg : w.toNat / 2 ^ 16 % 2 ^ 8 = w.toNat % 2 ^ 24 / 2 ^ 16 := by omega
  rw [decodeI16_iff, harg]
  simp

/-- In format I8 the word is illegal exactly when `arg[23:8]` is not 0; the reason is never the opcode. -/
theorem decodeI8_eq_illegal_iff (f : Byte → Instr) (w : Word) (why : Illegal) :
    decodeI8 f w = .illegal why ↔ w.toNat % 2 ^ 24 / 2 ^ 8 ≠ 0 ∧ why = .mustBeZero := by
  have harg : w.toNat / 2 ^ 8 % 2 ^ 16 = w.toNat % 2 ^ 24 / 2 ^ 8 := by omega
  rw [decodeI8_iff, harg]
  simp

/-- Settles O4: the ranges are what the formats' opcodes leave of 00..FF, and no format's decoder blames the
opcode. -/
theorem reservedOpcodesAreIllegal : Obligations.ReservedOpcodesAreIllegal := by
  rintro w op rfl
  have hop : w.toNat / 2 ^ 24 < 0x100 := by have := w.isLt; omega
  constructor
  · intro hrange
    refine decode_reserved ?_ ?_ (by omega)
    · simp only [opcodesN, List.mem_cons, List.not_mem_nil, or_false]
      omega
    · simp only [opcodesI16, List.mem_cons, List.not_mem_nil, or_false]
      omega
  · intro hreserved
    by_contra hrange
    have hknown : w.toNat / 2 ^ 24 ∈ opcodesN ∨ w.toNat / 2 ^ 24 ∈ opcodesI16 ∨ w.toNat / 2 ^ 24 = 0x03 := by
      simp only [opcodesN, opcodesI16, List.mem_cons, List.not_mem_nil, or_false]
      omega
    obtain hN | hI16 | hI8 := hknown
    · obtain ⟨i, hd⟩ := decode_of_mem_opcodesN hN
      simp [hd, decodeN_eq_illegal_iff] at hreserved
    · obtain ⟨f, hd⟩ := decode_of_mem_opcodesI16 hI16
      simp [hd, decodeI16_eq_illegal_iff] at hreserved
    · simp [decode_of_opcode_three hI8, decodeI8_eq_illegal_iff] at hreserved

/-- Settles O5, by the format's decoder for each list of opcodes. -/
theorem mustBeZeroBitsAreChecked : Obligations.MustBeZeroBitsAreChecked := by
  rintro w op arg rfl rfl
  refine ⟨fun hN => ?_, fun hI16 => ?_, fun hI8 => ?_⟩
  · obtain ⟨i, hd⟩ := decode_of_mem_opcodesN hN
    simp [hd, decodeN_eq_illegal_iff]
  · obtain ⟨f, hd⟩ := decode_of_mem_opcodesI16 hI16
    simp [hd, decodeI16_eq_illegal_iff]
  · simp [decode_of_opcode_three hI8, decodeI8_eq_illegal_iff]

end Sys2Proof.Proofs
end

section
/-! The family's statements on what words do: no word but NOP's is a no-op, what the assembler makes of an operand, and
what the words of the pseudo-instructions leave (30_encoding.md rules R57, R60 and R61). -/
namespace Sys2Proof.Proofs

open Sys2Proof.Machine Sys2Proof.Safety

/-! ### No-ops -/

/-- Every command answers a next state in every state (rule R208). -/
theorem exec_next (i : Instr) (s : State) : ∃ t, exec i s = .next t := by
  have processed (hi : isProcessing i = true) : ∃ t, exec i s = .next t := by
    rw [exec_processing i hi]
    obtain ⟨e, -, he⟩ | ⟨res, -, he⟩ := processing_hw_cases (checkedOf hw i s.w.toNat s.h.toNat s.inq) s
    · exact ⟨_, he⟩
    · exact ⟨_, he⟩
  cases i with
  | putb b => exact ⟨_, exec_putb b s⟩
  | newb => exact ⟨_, exec_newb s⟩
  | nop | setw | seth | clri | clro | clre | srst => exact ⟨_, rfl⟩
  | xfwd | xinv | dfwd | dinv | cmpr | dcmp | enc | dec => exact processed rfl

/-- A state on which every command but NOP leaves a mark, unless it is SETW or SETH with the value `v`: both
dimensions hold `v`, and STATUS and both queues hold something to clear. -/
def busy (v : Dim) (w : Word) : State :=
  { w := v, h := v, status := 1, inq := [[]], outq := [[]], moves := [.word w], pos := 0 }

/-- The five items of rule R10 are the same in both states. -/
def SameItems (s t : State) : Prop :=
  t.w = s.w ∧ t.h = s.h ∧ t.status = s.status ∧ t.inq = s.inq ∧ t.outq = s.outq

/-- A dimension that the command does not set. -/
def unsetDim : Instr → Dim
  | .setw v | .seth v => v + 1
  | _ => 0

/-- Every command but NOP changes the busy state made for it. -/
theorem effect_changes_busy {i : Instr} {w : Word} {t : State} (hi : i ≠ .nop)
    (h : Effect (busy (unsetDim i) w).advance i t) : ¬SameItems (busy (unsetDim i) w) t := by
  rintro ⟨hwidth, hheight, hstatus, hinq, houtq⟩
  cases h with
  | nop => exact hi rfl
  | setw v => simp [busy, unsetDim] at hwidth
  | seth v => simp [busy, unsetDim] at hheight
  | putb | newb => simp [busy, appendBuffer, appendByte] at hinq
  | clri | srst | error | success => simp [busy] at hinq
  | clro => simp [busy] at houtq
  | clre => simp [busy] at hstatus

/-- Error entry for an ILLEGAL word writes the busy state's STATUS (rule R177). -/
theorem illegalWord_changes_busy (v : Dim) (w : Word) : ¬SameItems (busy v w) (busy v w).advance.illegalWord := by
  rintro ⟨-, -, hstatus, -⟩
  have hsame : statusRaise .illegalCommand 1 = 1 := hstatus
  revert hsame
  decide

/-- Settles O8: an ILLEGAL word writes STATUS, and every command but NOP, whose only word is 0, changes the busy
state. -/
theorem onlyNopIsANoOp : Obligations.OnlyNopIsANoOp := by
  intro w hw
  cases hdecode : decode w with
  | illegal why => exact ⟨busy 0 w, _, step_illegal rfl hdecode, illegalWord_changes_busy 0 w⟩
  | command i =>
    have hi : i ≠ .nop := by
      rintro rfl
      exact hw (encode_of_decode hdecode).symm
    obtain ⟨t, ht⟩ := exec_next i (busy (unsetDim i) w).advance
    exact ⟨busy (unsetDim i) w, t, (step_command rfl hdecode).trans ht, effect_changes_busy hi (exec_effect ht)⟩

/-! ### The assembler -/

/-- A line whose operands fit assembles to its commands' words (rules R60 and R61). -/
theorem assembleItem_ok {it : AsmItem} (h : it.wellFormed = true) :
    assembleItem it = .ok (it.expand.map encode) := if_pos h

/-- A line that stands for one command assembles to that command's word. -/
theorem assembleItem_word {it : AsmItem} {i : Instr} {w : Word} (h : it.wellFormed = true) (hi : it.expand = [i])
    (hw : encode i = w) : assembleItem it = .ok [w] := by
  rw [assembleItem_ok h, hi, List.map_singleton, hw]

/-- A line with an operand that does not fit gives no word (rule R60). -/
theorem assembleItem_tooLarge {it : AsmItem} (h : it.wellFormed = false) :
    assembleItem it = .error .operandTooLarge := if_neg (by simp [h])

theorem wordI16_ofNat {n : Nat} (hn : n ≤ 65535) (op : Byte) :
    wordI16 op (BitVec.ofNat 16 n) = BitVec.ofNat 32 (op.toNat * 2 ^ 24 + n) := by
  have hop := op.isLt
  apply BitVec.eq_of_toNat_eq
  rw [wordI16_toNat, BitVec.toNat_ofNat, BitVec.toNat_ofNat]
  omega

theorem wordI8_ofNat {n : Nat} (hn : n ≤ 255) (op : Byte) :
    wordI8 op (BitVec.ofNat 8 n) = BitVec.ofNat 32 (op.toNat * 2 ^ 24 + n) := by
  have hop := op.isLt
  apply BitVec.eq_of_toNat_eq
  rw [wordI8_toNat, BitVec.toNat_ofNat, BitVec.toNat_ofNat]
  omega

/-- Settles O52: the limit of the operand is the limit of the immediate. -/
theorem assemblerNeverTruncates : Obligations.AssemblerNeverTruncates := by
  refine fun n => ⟨fun hn => ⟨?_, ?_⟩, fun hn => ⟨?_, ?_⟩, fun hn => ?_, fun hn => ?_⟩
  · exact assembleItem_word (decide_eq_true hn) rfl (wordI16_ofNat hn 0x01)
  · exact assembleItem_word (decide_eq_true hn) rfl (wordI16_ofNat hn 0x02)
  · exact assembleItem_tooLarge (decide_eq_false (Nat.not_le.2 hn))
  · exact assembleItem_tooLarge (decide_eq_false (Nat.not_le.2 hn))
  · exact assembleItem_word (decide_eq_true hn) rfl (wordI8_ofNat hn 0x03)
  · exact assembleItem_tooLarge (decide_eq_false (Nat.not_le.2 hn))

/-! ### Runs of the words of commands -/

/-- What the host still has to issue (rules R11 and R208). -/
def pending (s : State) : List HostMove := s.moves.drop s.pos

/-- The moves that issue the words of commands. -/
def issues (is : List Instr) : List HostMove := (is.map encode).map .word

/-- A run of commands starts with the first of them; what it leaves pending are the others. -/
theorem runSteps_issues_cons {s t : State} {i : Instr} {is : List Instr} (hs : pending s = issues (i :: is))
    (ht : exec i s.advance = .next t) (n : Nat) :
    runSteps (n + 1) s = runSteps n t ∧ pending t = issues is := by
  obtain ⟨hmoves, hpos⟩ := exec_keeps_moves ht
  constructor
  · have hnext : s.nextMove = some (.word (encode i)) := by
      rw [State.nextMove, ← List.head?_drop]
      exact congrArg List.head? hs
    exact runSteps_step n ((step_command hnext (decode_encode i)).trans ht)
  · rw [pending, hmoves, hpos, State.advance_moves, State.advance_pos, ← List.tail_drop]
    exact congrArg List.tail hs

/-- The words of a list of bytes append them one by one to INQ, and write nothing else (rule R73). -/
theorem runSteps_putb {s : State} {bs : List Byte} (hs : pending s = issues (bs.map .putb)) :
    runSteps bs.length s =
      .next { s with inq := bs.foldl (fun q b => appendByte b q) s.inq, pos := s.pos + bs.length } := by
  induction bs generalizing s with
  | nil => rfl
  | cons b bs ih =>
    obtain ⟨hrun, hpending⟩ := runSteps_issues_cons hs (exec_putb b s.advance) bs.length
    rw [List.length_cons, hrun, ih hpending, Nat.add_comm bs.length, ← Nat.add_assoc]
    rfl

/-- Bytes appended one by one to a queue with a last buffer are appended to that buffer. -/
theorem foldl_appendByte_concat (bs : List Byte) (q : Queue) (buf : Buffer) :
    bs.foldl (fun q b => appendByte b q) (q ++ [buf]) = q ++ [buf ++ bs] := by
  induction bs generalizing buf with
  | nil => simp
  | cons b bs ih => rw [List.foldl_cons, appendByte_concat, ih, List.append_assoc]; rfl

/-- Bytes appended one by one to the empty queue open its first buffer, if there are any. -/
theorem foldl_appendByte_nil (bs : List Byte) :
    bs.foldl (fun q b => appendByte b q) [] = if bs = [] then [] else [bs] := by
  cases bs with
  | nil => rfl
  | cons b bs => simpa using foldl_appendByte_concat bs [] [b]

/-! ### The pseudo-instructions -/

theorem buf_wellFormed (bs : List Byte) : (AsmItem.buf (bs.map BitVec.toNat)).wellFormed = true := by
  simp only [AsmItem.wellFormed, List.all_map, List.all_eq_true, Function.comp_apply, decide_eq_true_eq]
  intro b _
  have := b.isLt
  omega

theorem buf_expand (bs : List Byte) : (AsmItem.buf (bs.map BitVec.toNat)).expand = .newb :: bs.map .putb := by
  simp [AsmItem.expand]

theorem dim_wellFormed (w h : Dim) : (AsmItem.dim w.toNat h.toNat).wellFormed = true := by
  have hwidth := w.isLt
  have hheight := h.isLt
  simp only [AsmItem.wellFormed, Bool.and_eq_true, decide_eq_true_eq]
  omega

theorem dim_expand (w h : Dim) : (AsmItem.dim w.toNat h.toNat).expand = [.setw w, .seth h] := by
  simp [AsmItem.expand]

theorem rep_wellFormed (n : Nat) (b : Byte) : (AsmItem.rep n b.toNat).wellFormed = true := by
  have hb := b.isLt
  simp only [AsmItem.wellFormed, decide_eq_true_eq]
  omega

theorem rep_expand (n : Nat) (b : Byte) : (AsmItem.rep n b.toNat).expand = (List.replicate n b).map .putb := by
  simp [AsmItem.expand]

theorem runWords_encode (is : List Instr) (s : State) :
    runWords (is.map encode) s = runSteps is.length (load (is.map encode) s) := by
  rw [runWords, List.length_map]

theorem pending_load_encode (is : List Instr) (s : State) : pending (load (is.map encode) s) = issues is := rfl

/-- The words of `.buf` load one buffer at the tail of INQ, and write nothing else. -/
theorem runWords_buf (bs : List Byte) (s : State) :
    ∃ t, runWords ((AsmItem.buf (bs.map BitVec.toNat)).expand.map encode) s = .next t ∧ t.inq = s.inq ++ [bs] ∧
      t.w = s.w ∧ t.h = s.h ∧ t.status = s.status ∧ t.outq = s.outq := by
  rw [buf_expand, runWords_encode]
  obtain ⟨hrun, hpending⟩ := runSteps_issues_cons (pending_load_encode _ s) (exec_newb _) (bs.map Instr.putb).length
  rw [List.length_cons, hrun, List.length_map, runSteps_putb hpending]
  exact ⟨_, rfl, foldl_appendByte_concat bs s.inq [], rfl, rfl, rfl, rfl⟩

/-- The words of `.dim` set both dimensions, and write nothing else. -/
theorem runWords_dim (w h : Dim) (s : State) :
    ∃ t, runWords ((AsmItem.dim w.toNat h.toNat).expand.map encode) s = .next t ∧ t.w = w ∧ t.h = h ∧
      t.inq = s.inq ∧ t.status = s.status ∧ t.outq = s.outq := by
  rw [dim_expand, runWords_encode]
  obtain ⟨hsetw, hpending⟩ := runSteps_issues_cons (pending_load_encode [.setw w, .seth h] s) rfl 1
  obtain ⟨hseth, -⟩ := runSteps_issues_cons hpending rfl 0
  exact ⟨_, hsetw.trans hseth, rfl, rfl, rfl, rfl, rfl⟩

/-- The words of `.rep` append equal bytes to INQ, and write nothing else. -/
theorem runWords_rep (n : Nat) (b : Byte) (s : State) :
    ∃ t, runWords ((AsmItem.rep n b.toNat).expand.map encode) s = .next t ∧
      t.inq = (List.replicate n b).foldl (fun q b => appendByte b q) s.inq ∧
      t.w = s.w ∧ t.h = s.h ∧ t.status = s.status ∧ t.outq = s.outq := by
  rw [rep_expand, runWords_encode, List.length_map, runSteps_putb (pending_load_encode _ s)]
  exact ⟨_, rfl, rfl, rfl, rfl, rfl, rfl⟩

/-- Settles O53: each pseudo-instruction assembles, and its words are run one by one. -/
theorem pseudoInstructionsDoWhatTheyStandFor : Obligations.PseudoInstructionsDoWhatTheyStandFor := by
  refine fun s => ⟨fun bs => ?_, fun w h => ?_, fun n b => ?_⟩
  · obtain ⟨t, hrun, hitems⟩ := runWords_buf bs s
    exact ⟨_, t, assembleItem_ok (buf_wellFormed bs), hrun, hitems⟩
  · obtain ⟨t, hrun, hitems⟩ := runWords_dim w h s
    exact ⟨_, t, assembleItem_ok (dim_wellFormed w h), hrun, hitems⟩
  · obtain ⟨t, hrun, hinq, hframe⟩ := runWords_rep n b s
    refine ⟨_, t, assembleItem_ok (rep_wellFormed n b), hrun, fun q buf hs => ?_, fun hs => ?_, hframe⟩
    · rw [hinq, hs, foldl_appendByte_concat]
    · simp only [hinq, hs, foldl_appendByte_nil, List.replicate_eq_nil_iff]

end Sys2Proof.Proofs
end

section
/-! The family's statements on the control commands and the data port (40_control_and_data_port.md), and the two frames
of section 1: a control command reads INQ alone (rule R81), a processing command succeeds or raises (rule R80). -/
namespace Sys2Proof.Proofs

open Sys2Proof.Machine Sys2Proof.Safety

/-! ### Control commands -/

/-- Settles O20: NOP writes nothing, SRST every item, and each other control command one item; only PUTB and NEWB
read anything, and that is INQ. -/
theorem controlCommandsReadOnlyInq : Obligations.ControlCommandsReadOnlyInq := by
  intro i s s' hi hinq
  cases i with
  | putb b => exact ⟨_, _, exec_putb b s, exec_putb b s', by simp [hinq]⟩
  | newb => exact ⟨_, _, exec_newb s, exec_newb s', by simp [hinq]⟩
  | nop | setw | seth | clri | clro | clre | srst => exact ⟨_, _, rfl, rfl, by simp [hinq]⟩
  | xfwd | xinv | dfwd | dinv | cmpr | dcmp | enc | dec => cases hi

/-- Settles O14: opcode 00 has format N, so a non-zero `arg` is illegal. -/
theorem nopChangesNothing : Obligations.NopChangesNothing := by
  refine ⟨rfl, fun w hop harg => ?_, fun s => rfl⟩
  rw [decode_op00 w (opField_eq hop)]
  exact (decodeN_eq_illegal_iff .nop w .mustBeZero).2 ⟨harg, rfl⟩

/-- Settles O15, by the number of a word of format I16. -/
theorem setwAndSethStoreUnchecked : Obligations.SetwAndSethStoreUnchecked :=
  fun v _ => ⟨wordI16_toNat 0x01 v, rfl, wordI16_toNat 0x02 v, rfl⟩

/-- Settles O16, by the two equations of `appendByte`. -/
theorem putbAppendsToTheLastBuffer : Obligations.PutbAppendsToTheLastBuffer := by
  refine fun b s => ⟨wordI8_toNat 0x03 b, fun hempty => ?_, fun q buf hlast => ?_⟩
  · rw [exec_putb, hempty, appendByte_nil]
    rfl
  · rw [exec_putb, hlast, appendByte_concat]
    rfl

/-- Settles O17. -/
theorem newbAddsAnEmptyBuffer : Obligations.NewbAddsAnEmptyBuffer := ⟨rfl, exec_newb⟩

/-- Settles O18. -/
theorem clearCommandsClearOneItem : Obligations.ClearCommandsClearOneItem :=
  ⟨rfl, rfl, rfl, fun _ => ⟨rfl, rfl, rfl⟩⟩

/-- Settles O19. -/
theorem srstResetsEveryItem : Obligations.SrstResetsEveryItem := ⟨rfl, fun _ => rfl⟩

/-! ### Which errors the checks of a processing command can raise -/

/-- Whatever error the checks end in is one of these. -/
def RaisesOnly (allowed : List ErrCode) (c : Checked) : Prop := ∀ e, c = .error e → e ∈ allowed

section
variable {allowed : List ErrCode}

theorem raisesOnly_ok (res : Queue) : RaisesOnly allowed (.ok res) := fun _ h => by cases h

theorem raisesOnly_error {e : ErrCode} (he : e ∈ allowed) : RaisesOnly allowed (.error e) := fun _ h => by
  cases h
  exact he

/-- A check that is a condition raises its own error or what follows it raises. -/
theorem raisesOnly_ite {p : Prop} [Decidable p] {k : Checked} {e : ErrCode} (he : e ∈ allowed)
    (hk : RaisesOnly allowed k) : RaisesOnly allowed (if p then k else .error e) := by
  split
  · exact hk
  · exact raisesOnly_error he

theorem raisesOnly_checkDims {w h : Nat} {k : Checked} (he : .dimension ∈ allowed) (hk : RaisesOnly allowed k) :
    RaisesOnly allowed (checkDims w h k) := raisesOnly_ite he hk

theorem raisesOnly_checkLen {n m : Nat} {k : Checked} (he : .sizeMismatch ∈ allowed) (hk : RaisesOnly allowed k) :
    RaisesOnly allowed (checkLen n m k) := raisesOnly_ite he hk

theorem raisesOnly_checkAllLen {q : Queue} {n : Nat} {k : Checked} (he : .sizeMismatch ∈ allowed)
    (hk : RaisesOnly allowed k) : RaisesOnly allowed (checkAllLen q n k) := raisesOnly_ite he hk

theorem raisesOnly_checkWholeFrames {length flen : Nat} {k : Checked} (he : .corruptStream ∈ allowed)
    (hk : RaisesOnly allowed k) : RaisesOnly allowed (checkWholeFrames length flen k) := raisesOnly_ite he hk

theorem raisesOnly_takeOne {q : Queue} {k : Buffer → Checked} (he : .operandCount ∈ allowed)
    (hk : ∀ b, RaisesOnly allowed (k b)) : RaisesOnly allowed (takeOne q k) := by
  unfold takeOne
  split
  · exact hk _
  · exact raisesOnly_error he

theorem raisesOnly_takeTwo {q : Queue} {k : Buffer → Buffer → Checked} (he : .operandCount ∈ allowed)
    (hk : ∀ a b, RaisesOnly allowed (k a b)) : RaisesOnly allowed (takeTwo q k) := by
  unfold takeTwo
  split
  · exact hk _ _
  · exact raisesOnly_error he

theorem raisesOnly_decompressed {cfg : Config} {stream : Buffer} {k : Buffer → Checked}
    (he : .corruptStream ∈ allowed) (hk : ∀ x, RaisesOnly allowed (k x)) :
    RaisesOnly allowed (decompressed cfg stream k) := by
  unfold decompressed
  split
  · exact raisesOnly_error he
  · exact hk _

end

/-- The errors a command can report, by the table of rule R179; a control command has none (rule R81). -/
def errorsOf : Instr → List ErrCode
  | .xfwd | .xinv => [.dimension, .operandCount, .sizeMismatch]
  | .dfwd | .dinv => [.operandCount, .sizeMismatch]
  | .cmpr => [.operandCount]
  | .dcmp => [.operandCount, .corruptStream]
  | .enc => [.dimension, .sizeMismatch]
  | .dec => [.dimension, .operandCount, .corruptStream]
  | .nop | .setw _ | .seth _ | .putb _ | .newb | .clri | .clro | .clre | .srst => []

/-- The checks of a command raise only errors of its row of rule R179. -/
theorem checkedOf_raisesOnly (cfg : Config) (i : Instr) (w h : Nat) (inq : Queue) :
    RaisesOnly (errorsOf i) (checkedOf cfg i w h inq) := by
  cases i with
  | xfwd | xinv =>
    exact raisesOnly_checkDims (by decide) <| raisesOnly_takeOne (by decide) fun _ =>
      raisesOnly_checkLen (by decide) (raisesOnly_ok _)
  | dfwd | dinv =>
    exact raisesOnly_takeTwo (by decide) fun _ _ => raisesOnly_checkLen (by decide) (raisesOnly_ok _)
  | cmpr => exact raisesOnly_takeOne (by decide) fun _ => raisesOnly_ok _
  | dcmp =>
    exact raisesOnly_takeOne (by decide) fun _ => raisesOnly_decompressed (by decide) fun _ => raisesOnly_ok _
  | enc => exact raisesOnly_checkDims (by decide) (raisesOnly_checkAllLen (by decide) (raisesOnly_ok _))
  | dec =>
    exact raisesOnly_checkDims (by decide) <| raisesOnly_takeOne (by decide) fun _ =>
      raisesOnly_decompressed (by decide) fun _ => raisesOnly_checkWholeFrames (by decide) (raisesOnly_ok _)
  | nop | setw | seth | putb | newb | clri | clro | clre | srst => exact raisesOnly_ok _

/-- Error 4 is the ILLEGAL word's alone (rules R174 and R179). -/
theorem illegalCommand_not_mem_errorsOf (i : Instr) : .illegalCommand ∉ errorsOf i := by
  cases i <;> simp [errorsOf]

/-- Settles O31: the checks decide between success and error entry, and no check raises error 4. -/
theorem processingCommandsSucceedOrRaise : Obligations.ProcessingCommandsSucceedOrRaise := by
  intro i s hi
  cases hchecked : checkedOf hw i s.w.toNat s.h.toNat s.inq with
  | ok res =>
    obtain ⟨t, hexec, hsuccess⟩ := yields_of_checkedOf hi hchecked
    exact ⟨t, hexec, .inl ⟨res, hsuccess⟩⟩
  | error e =>
    obtain ⟨t, hexec, hraised⟩ := endsIn_of_checkedOf hi hchecked
    have herror : e ∈ errorsOf i := checkedOf_raisesOnly hw i _ _ _ e hchecked
    refine ⟨t, hexec, .inr ?_⟩
    cases e with
    | dimension => exact .inl hraised
    | sizeMismatch => exact .inr (.inl hraised)
    | corruptStream => exact .inr (.inr (.inl hraised))
    | operandCount => exact .inr (.inr (.inr hraised))
    | illegalCommand => exact absurd herror (illegalCommand_not_mem_errorsOf i)

end Sys2Proof.Proofs
end

section
/-! The family's statements on the colour converter (41_color_converter.md): what the two store rules keep of a number
given over a scale (rules R93 and R98), the ranges of the forward values (rule R94), and the integer forms against the
decimal formulas (rule R92). -/
namespace Sys2Proof.Proofs

open Sys2Proof.Machine Sys2Proof.Safety

/-! ### The store rules on integers -/

/-- `trunc8_toNat` for an integer numerator: in range, the forward store is the integer part (rule R93). -/
theorem trunc8_toInt {n : Int} {d : Nat} (h0 : 0 ≤ n) (hlt : n < 256 * d) : ((trunc8 n d).toNat : Int) = n / d := by
  lift n to Nat using h0
  rw [trunc8_toNat rfl (by exact_mod_cast hlt), Int.natCast_ediv]

theorem sat8_of_neg {n : Int} (h : n < 0) (d : Nat) : sat8 n d = 0 := if_pos h

theorem sat8_of_gt {n : Int} {d : Nat} (h : 255 * (d : Int) < n) : sat8 n d = 255 := by
  rw [sat8, if_neg (by omega), if_pos h]

/-- Between the bounds the inverse store is the forward store. -/
theorem sat8_of_mem {n : Int} {d : Nat} (h0 : 0 ≤ n) (h : n ≤ 255 * d) : sat8 n d = trunc8 n d := by
  rw [sat8, if_neg (by omega), if_neg (by omega), trunc8]

/-- Rule R98 over any scale: the inverse store clamps the floored quotient. -/
theorem sat8_toInt (n : Int) {d : Nat} (hd : 0 < d) : ((sat8 n d).toNat : Int) = min (max (n / d) 0) 255 := by
  have hd' : (0 : Int) < d := by exact_mod_cast hd
  obtain hneg | h0 := lt_or_ge n 0
  · have hq : n / d < 0 := Int.ediv_neg_of_neg_of_pos hneg hd'
    rw [sat8_of_neg hneg, max_eq_right hq.le]
    rfl
  have hq0 : 0 ≤ n / d := Int.ediv_nonneg h0 hd'.le
  obtain hgt | hle := lt_or_ge (255 * (d : Int)) n
  · have hq : 255 ≤ n / d := (Int.le_ediv_iff_mul_le hd').2 hgt.le
    rw [sat8_of_gt hgt, max_eq_left hq0, min_eq_right hq]
    rfl
  · have hq : n / d ≤ 255 := Int.ediv_le_of_le_mul hd' hle
    rw [sat8_of_mem h0 hle, trunc8_toInt h0 (by omega), max_eq_left hq0, min_eq_left hq]

/-- The two ways to drop a fraction differ below 0 only, and there both quotients clamp to 0. -/
theorem max_tdiv_zero (n : Int) {d : Nat} (hd : 0 < d) : max (n.tdiv d) 0 = max (n / d) 0 := by
  have hd' : (0 : Int) < d := by exact_mod_cast hd
  obtain h0 | hneg := le_or_gt 0 n
  · rw [Int.tdiv_eq_ediv_of_nonneg h0]
  · have htrunc : n.tdiv d ≤ 0 := by
      simpa only [Int.neg_tdiv, Int.neg_nonneg] using Int.tdiv_nonneg (Int.neg_nonneg.2 hneg.le) hd'.le
    have hfloor : n / d < 0 := Int.ediv_neg_of_neg_of_pos hneg hd'
    rw [max_eq_right htrunc, max_eq_right hfloor.le]

/-- Clamping in thousandths and then dropping the fraction is clamping the quotient. -/
theorem clampThousandths_eq (n : Int) : (clampThousandths n : Int) = min (max (n / 1000) 0) 255 := by
  unfold clampThousandths
  omega

/-- Settles O38: all three are the clamp of the floored quotient. -/
theorem inverseStoreClampsEitherWay : Obligations.InverseStoreClampsEitherWay := by
  intro n
  have hfloor : ((sat8 n 1000).toNat : Int) = min (max (n / 1000) 0) 255 := sat8_toInt n (by decide)
  have htrunc : max (n.tdiv 1000) 0 = max (n / 1000) 0 := max_tdiv_zero n (by decide)
  refine ⟨?_, by rw [hfloor, htrunc], hfloor⟩
  exact_mod_cast hfloor.trans (clampThousandths_eq n).symm

/-! ### The ranges of the forward values (rule R94) -/

section Ranges
variable (r g b : Byte)

theorem yNum_hw_mem : 0 ≤ yNum hwCoefFwd r g b ∧ yNum hwCoefFwd r g b ≤ 2550000 := by
  simp only [yNum, hwCoefFwd]
  omega

theorem uNum_hw_mem : 5000 ≤ uNum hwCoefFwd r g b ∧ uNum hwCoefFwd r g b ≤ 2424950 := by
  simp only [uNum, hwCoefFwd]
  omega

theorem vNum_hw_mem : 6785 ≤ vNum hwCoefFwd r g b ∧ vNum hwCoefFwd r g b ≤ 2552450 := by
  simp only [vNum, hwCoefFwd]
  omega

end Ranges

/-- Settles O37: the ranges are those of a linear form over bytes, and their upper bound is below 256 over the scale. -/
theorem forwardStoreNeverWraps : Obligations.ForwardStoreNeverWraps := by
  refine ⟨fun r g b => ⟨yNum_hw_mem r g b, uNum_hw_mem r g b, vNum_hw_mem r g b⟩, by decide, ?_, ?_⟩
  · intro n h0 hle
    exact trunc8_toInt h0 (by omega)
  · intro n0 n1 n2 n3 _ _ _ _ _ _ _ _
    exact trunc8_toInt (by omega) (by omega)

/-! ### The integer forms against the decimal formulas (rule R92) -/

/-- Truncating the exact quotient is the integer division toward zero. -/
theorem tz_div (n : Int) {d : Nat} (hd : 0 < d) : tz (n / d) = n.tdiv d := by
  have hd' : (0 : Rat) < d := by exact_mod_cast hd
  have hfloor (m : Int) : ((m : Rat) / d).floor = m / d := Rat.floor_intCast_div_natCast m d
  obtain h0 | hneg := le_or_gt 0 n
  · have hq : 0 ≤ (n : Rat) / d := by positivity
    rw [tz, if_pos hq, hfloor, Int.tdiv_eq_ediv_of_nonneg h0]
  · have hq : (n : Rat) / d < 0 := div_neg_of_neg_of_pos (by exact_mod_cast hneg) hd'
    have hneg0 : 0 ≤ -n := by omega
    rw [tz, if_neg hq.not_ge, ← neg_div, ← Int.cast_neg, hfloor, ← Int.tdiv_eq_ediv_of_nonneg hneg0, Int.neg_tdiv,
      neg_neg]

theorem trunc8Rat_div (n : Int) {d : Nat} (hd : 0 < d) : trunc8Rat (n / d) = trunc8 n d := by
  rw [trunc8Rat, tz_div n hd, trunc8]

theorem sat8Rat_div (n : Int) {d : Nat} (hd : 0 < d) : sat8Rat (n / d) = sat8 n d := by
  have hd' : (0 : Rat) < d := by exact_mod_cast hd
  have hneg : (n : Rat) / d < 0 ↔ n < 0 := by rw [div_lt_iff₀ hd', zero_mul, Int.cast_lt_zero]
  have hgt : 255 < (n : Rat) / d ↔ 255 * (d : Int) < n := by rw [lt_div_iff₀ hd']; exact_mod_cast Iff.rfl
  simp only [sat8Rat, sat8, tz_div n hd, hneg, hgt]

/-- Rule R91 with its literals over 10000. -/
theorem rgbToYuvRat_eq (r g b : Byte) :
    rgbToYuvRat r g b =
      ((yNum hwCoefFwd r g b : Rat) / (10000 : Nat), (uNum hwCoefFwd r g b : Rat) / (10000 : Nat),
        (vNum hwCoefFwd r g b : Rat) / (10000 : Nat)) := by
  simp only [rgbToYuvRat, yNum, uNum, vNum, hwCoefFwd, Prod.mk.injEq]
  push_cast
  refine ⟨?_, ?_, ?_⟩ <;> ring

/-- Rule R97 with its literals over 1000. -/
theorem yuvToRgbRat_eq (y u v : Byte) :
    yuvToRgbRat y u v =
      (sat8Rat ((rNum hwCoefInv y v : Rat) / (1000 : Nat)), sat8Rat ((gNum hwCoefInv y u v : Rat) / (1000 : Nat)),
        sat8Rat ((bNum hwCoefInv y u : Rat) / (1000 : Nat))) := by
  simp only [yuvToRgbRat, rNum, gNum, bNum, hwCoefInv, Prod.mk.injEq]
  push_cast
  refine ⟨congrArg sat8Rat ?_, congrArg sat8Rat ?_, congrArg sat8Rat ?_⟩ <;> ring

/-- Settles O39: both store rules give on an exact quotient what they give on its integer form. -/
theorem integerFormsAreExact : Obligations.IntegerFormsAreExact := by
  intro a b c
  constructor
  · rw [rgbToYuvRat_eq, trunc8Rat_div _ (by decide), trunc8Rat_div _ (by decide), trunc8Rat_div _ (by decide)]
    rfl
  · rw [yuvToRgbRat_eq, sat8Rat_div _ (by decide), sat8Rat_div _ (by decide), sat8Rat_div _ (by decide)]
    rfl

/-- Settles O40: rule R100's three colours, there and back. -/
theorem colourConversionIsLossy : Obligations.ColourConversionIsLossy := by
  unfold Obligations.ColourConversionIsLossy
  decide

end Sys2Proof.Proofs
end

section
/-! The family's statements on the FrameTranscoder (42_frame_transcoder.md): the checks that XFWD and XINV share, the
picture that `transcode_inv` writes, frames of one colour, and the two readings of the chroma mean. -/
namespace Sys2Proof.Proofs

open Sys2Proof.Machine Sys2Proof.Safety

/-! ### The outcomes of XFWD and XINV from their checks (rules R115 and R116) -/

/-- The checks of a command that takes one frame of `n` bytes and leaves one buffer, in their order. -/
def oneFrameChecked (w h n : Nat) (f : Buffer → Buffer) (q : Queue) : Checked :=
  checkDims w h <| takeOne q fun b => checkLen b.length n <| .ok [f b]

theorem checkedOf_xfwd (cfg : Config) (w h : Nat) (q : Queue) :
    checkedOf cfg .xfwd w h q = oneFrameChecked w h (rawLen w h) (fun raw => transcodeFwd cfg raw w h) q := rfl

theorem checkedOf_xinv (cfg : Config) (w h : Nat) (q : Queue) :
    checkedOf cfg .xinv w h q = oneFrameChecked w h (frameLen w h) (fun pl => transcodeInv cfg pl w h) q := rfl

section OneFrame

variable {i : Instr} {s : State} {n : Nat} {f : Buffer → Buffer} (hi : isProcessing i = true)
  (hchecked : checkedOf hw i s.w.toNat s.h.toNat s.inq = oneFrameChecked s.w.toNat s.h.toNat n f s.inq)
  (hd : DimOk s)
include hi hchecked hd

theorem endsIn_of_frame_count (hcount : s.inq.length ≠ 1) : EndsIn i 5 s := by
  refine endsIn_of_checkedOf (e := .operandCount) hi ?_
  rw [hchecked, oneFrameChecked, checkDims_ok hd, takeOne_bad hcount]

theorem endsIn_of_frame_length {b : Buffer} (hinq : s.inq = [b]) (hlen : b.length ≠ n) : EndsIn i 2 s := by
  refine endsIn_of_checkedOf (e := .sizeMismatch) hi ?_
  rw [hchecked, oneFrameChecked, checkDims_ok hd, hinq, takeOne_single, checkLen_bad hlen]

theorem yields_of_frame {b : Buffer} (hinq : s.inq = [b]) (hlen : b.length = n) : Yields i [f b] s := by
  refine yields_of_checkedOf hi ?_
  rw [hchecked, oneFrameChecked, checkDims_ok hd, hinq, takeOne_single, checkLen_ok hlen]

end OneFrame

/-- XFWD of one frame of the right length at legal dimensions leaves its planar frame. -/
theorem xfwd_yields {s : State} {raw : Buffer} (hd : DimOk s) (hinq : s.inq = [raw])
    (hlen : raw.length = rawSize s) : Yields .xfwd [transcodeFwd hw raw s.w.toNat s.h.toNat] s :=
  yields_of_frame rfl (checkedOf_xfwd ..) hd hinq (by rwa [rawLen_eq])

/-- Settles O21: the checks in their order, and the planar frame of the input. -/
theorem xfwdOutcomes : Obligations.XfwdOutcomes := by
  refine ⟨by decide, fun s => ⟨endsIn_of_bad_dims rfl, endsIn_of_frame_count rfl (checkedOf_xfwd ..), ?_, ?_⟩⟩
  · intro raw hd hinq hlen
    exact endsIn_of_frame_length rfl (checkedOf_xfwd ..) hd hinq (by rwa [rawLen_eq])
  · intro raw hd hinq hlen
    have ⟨_, _, hw2, hh2⟩ := hd
    exact ⟨_, transcodeFwd_isPlanarOf raw hw2 hh2, xfwd_yields hd hinq hlen⟩

/-! ### The picture of the inverse transcoding (rule R113) -/

/-- The inverse store over 1000 clamps thousandths (rule R98). -/
theorem sat8_thousandths_toNat (n : Int) : (sat8 n 1000).toNat = clampThousandths n :=
  (inverseStoreClampsEitherWay n).1

/-- The three bytes of a pixel, from its own luma byte and its block's two chroma bytes. -/
theorem rgbAt_hw {pl : Buffer} {w h row col : Nat} {y u v : Byte} (hy : pl[row * w + col]? = some y)
    (hu : pl[w * h + row / 2 * (w / 2) + col / 2]? = some u)
    (hv : pl[w * h + w * h / 4 + row / 2 * (w / 2) + col / 2]? = some v) :
    rgbAt hwCoefInv pl w h row col =
      [sat8 (rNum hwCoefInv y v) 1000, sat8 (gNum hwCoefInv y u v) 1000, sat8 (bNum hwCoefInv y u) 1000] := by
  simp only [rgbAt, pixels, chromaLen, byteAt_of_getElem? hy, byteAt_of_getElem? hu, byteAt_of_getElem? hv]
  rfl

/-- XINV's function gives the RawFrame of every PlanarYUVFrame (rules R30, R97 and R113). -/
theorem transcodeInv_isRawOf (pl : Buffer) (w h : Nat) : IsRawOf w h pl (transcodeInv hw pl w h) := by
  refine ⟨by rw [transcodeInv_length, rawLen_eq], ?_⟩
  rintro row col _ _ _ hrow hcol ⟨y, hy, rfl⟩ ⟨u, hu, rfl⟩ ⟨v, hv, rfl⟩
  have hbyte (c : Nat) (hc : c < 3) :
      (transcodeInv hw pl w h)[(row * w + col) * 3 + c]? = (rgbAt hwCoefInv pl w h row col)[c]? :=
    transcodeInv_get hw pl hrow hcol hc
  rw [rgbAt_hw hy hu hv] at hbyte
  exact ⟨⟨_, hbyte 0 (by decide), sat8_thousandths_toNat _⟩, ⟨_, hbyte 1 (by decide), sat8_thousandths_toNat _⟩,
    ⟨_, hbyte 2 (by decide), sat8_thousandths_toNat _⟩⟩

/-- Settles O22: the checks in their order, and the RawFrame of the input. -/
theorem xinvOutcomes : Obligations.XinvOutcomes := by
  refine ⟨by decide, fun s => ⟨endsIn_of_bad_dims rfl, endsIn_of_frame_count rfl (checkedOf_xinv ..), ?_, ?_⟩⟩
  · intro pl hd hinq hlen
    have ⟨_, _, hw2, hh2⟩ := hd
    exact endsIn_of_frame_length rfl (checkedOf_xinv ..) hd hinq (by rwa [frameLen_eq hw2 hh2])
  · intro pl hd hinq hlen
    have ⟨_, _, hw2, hh2⟩ := hd
    exact ⟨_, transcodeInv_isRawOf pl _ _,
      yields_of_frame rfl (checkedOf_xinv ..) hd hinq (by rwa [frameLen_eq hw2 hh2])⟩

/-! ### The mean of four values (rules R111 and R118) -/

/-- The mean of four equal values is the value, in either reading. -/
theorem blockMean_self (mode : AvgMode) (scale : Nat) (n : Int) : blockMean mode scale n n n n = trunc8 n scale := by
  cases mode with
  | meanThenTruncate =>
    have hsum : n + n + n + n = 4 * n := by ring
    have hscale : ((4 * scale : Nat) : Int) = 4 * scale := by push_cast; rfl
    rw [blockMean, trunc8, hsum, hscale, Int.mul_tdiv_mul_of_pos _ _ (by decide), trunc8]
  | truncateThenMean =>
    have hmean (m : Nat) : (m + m + m + m) / 4 = m := by omega
    rw [blockMean, hmean, BitVec.ofNat_toNat, BitVec.setWidth_eq]

theorem blockMean_truncateThenMean_toNat (scale : Nat) (n0 n1 n2 n3 : Int) :
    (blockMean .truncateThenMean scale n0 n1 n2 n3).toNat =
      ((trunc8 n0 scale).toNat + (trunc8 n1 scale).toNat + (trunc8 n2 scale).toNat + (trunc8 n3 scale).toNat) / 4 := by
  rw [blockMean, BitVec.toNat_ofNat]
  omega

/-- Settles O41: both means are integer divisions, of the sum and of the sum of the four integer parts, which is less
by under four. -/
theorem averagingModesDifferByAtMostOne : Obligations.AveragingModesDifferByAtMostOne := by
  intro n0 n1 n2 n3 h0 h1 h2 h3 hle0 hle1 hle2 hle3
  have hmean : ((blockMean .meanThenTruncate 10000 n0 n1 n2 n3).toNat : Int) = (n0 + n1 + n2 + n3) / 40000 :=
    trunc8_toInt (by omega) (by omega)
  have hpart {n : Int} (hn : 0 ≤ n) (hle : n ≤ 2552450) : ((trunc8 n 10000).toNat : Int) = n / 10000 :=
    trunc8_toInt hn (by omega)
  have ht0 := hpart h0 hle0
  have ht1 := hpart h1 hle1
  have ht2 := hpart h2 hle2
  have ht3 := hpart h3 hle3
  rw [blockMean_truncateThenMean_toNat]
  refine ⟨by omega, by omega, ?_⟩
  rw [blockMean_self, blockMean_self]

/-! ### Frames of one colour (rule R117) -/

/-- A plane whose samples are all the same. -/
theorem plane_eq_replicate {rows cols : Nat} {sample : Nat → Nat → Byte} {v : Byte}
    (hv : ∀ i j, i < rows → j < cols → sample i j = v) :
    plane rows cols sample = List.replicate (rows * cols) v := by
  refine List.eq_replicate_iff.2 ⟨plane_length rows cols sample, fun b hb => ?_⟩
  simp only [plane, List.mem_flatMap, List.mem_map, List.mem_range] at hb
  obtain ⟨i, hi, j, hj, rfl⟩ := hb
  exact hv i j hi hj

/-- A RawFrame of `n` pixels of one colour (rule R30). -/
def solidFrame (n : Nat) (r g b : Byte) : Buffer := (List.replicate n [r, g, b]).flatten

theorem solidFrame_length (n : Nat) (r g b : Byte) : (solidFrame n r g b).length = 3 * n := by
  simp [solidFrame, Nat.mul_comm]

theorem solidFrame_eq_flatMap (n : Nat) (r g b : Byte) :
    solidFrame n r g b = (List.range n).flatMap fun _ => [r, g, b] := by
  rw [solidFrame, List.flatMap_def, List.map_const', List.length_range]

/-- Every pixel of a frame of one colour has that colour. -/
theorem atPixel_solidFrame (f : Byte → Byte → Byte → Int) {r g b : Byte} {w h row col : Nat} (hrow : row < h)
    (hcol : col < w) : atPixel f (solidFrame (w * h) r g b) w row col = f r g b := by
  have hlt : row * w + col < w * h := by
    calc row * w + col < row * w + w := by omega
      _ = (row + 1) * w := (Nat.succ_mul row w).symm
      _ ≤ h * w := Nat.mul_le_mul_right w hrow
      _ = w * h := Nat.mul_comm h w
  have hbyte (c : Nat) (hc : c < 3) :
      (solidFrame (w * h) r g b)[(row * w + col) * 3 + c]? = [r, g, b][c]? := by
    rw [solidFrame_eq_flatMap]
    exact flatMap_range_get _ 3 _ (fun _ => rfl) _ _ hlt hc
  have hred : byteAt (solidFrame (w * h) r g b) ((row * w + col) * 3) = r := byteAt_of_getElem? (hbyte 0 (by decide))
  rw [atPixel, hred, byteAt_of_getElem? (hbyte 1 (by decide)), byteAt_of_getElem? (hbyte 2 (by decide))]

/-- A pixel of a frame of one colour stores that colour's luma (rules R110 and R117). -/
theorem lumaAt_solidFrame (c : CoefFwd) {r g b : Byte} {w h row col : Nat} (hrow : row < h) (hcol : col < w) :
    lumaAt c (solidFrame (w * h) r g b) w row col = trunc8 (yNum c r g b) c.scale := by
  rw [lumaAt, atPixel_solidFrame _ hrow hcol]

/-- A block of a frame of one colour stores that colour's value (rules R111 and R117). -/
theorem chromaAt_solidFrame (mode : AvgMode) (scale : Nat) (f : Byte → Byte → Byte → Int) {r g b : Byte}
    {w h i j : Nat} (hi : i < h / 2) (hj : j < w / 2) :
    chromaAt mode scale f (solidFrame (w * h) r g b) w i j = trunc8 (f r g b) scale := by
  rw [chromaAt, atPixel_solidFrame (h := h) f (by omega) (by omega),
    atPixel_solidFrame (h := h) f (by omega) (by omega), atPixel_solidFrame (h := h) f (by omega) (by omega),
    atPixel_solidFrame (h := h) f (by omega) (by omega), blockMean_self]

/-- The planar frame of a frame of one colour, in either reading of the mean: the three bytes of the colour, each
over its plane. -/
theorem transcodeFwd_solidFrame (cfg : Config) {r g b y u v : Byte} {w h : Nat} (hw2 : w % 2 = 0) (hh2 : h % 2 = 0)
    (hyuv : rgbToYuv8 cfg.coefFwd r g b = (y, u, v)) :
    transcodeFwd cfg (solidFrame (w * h) r g b) w h =
      List.replicate (w * h) y ++ List.replicate (w * h / 4) u ++ List.replicate (w * h / 4) v := by
  have hquarter : w * h / 4 = h / 2 * (w / 2) := chromaLen_eq hw2 hh2
  simp only [rgbToYuv8, Prod.mk.injEq] at hyuv
  obtain ⟨rfl, rfl, rfl⟩ := hyuv
  rw [transcodeFwd, plane_eq_replicate fun _ _ => lumaAt_solidFrame _,
    plane_eq_replicate fun _ _ => chromaAt_solidFrame _ _ _, plane_eq_replicate fun _ _ => chromaAt_solidFrame _ _ _,
    hquarter, Nat.mul_comm h w]

/-- Settles O36: INQ holds a frame of the right length, and its planar frame is solid in each plane. -/
theorem solidColourHasNoArtifacts : Obligations.SolidColourHasNoArtifacts := by
  intro s r g b y u v hd hyuv hinq
  have ⟨_, _, hw2, hh2⟩ := hd
  rw [← transcodeFwd_solidFrame hw hw2 hh2 hyuv]
  exact xfwd_yields hd hinq ((solidFrame_length _ r g b).trans (Nat.mul_assoc ..).symm)

end Sys2Proof.Proofs
end

section
/-! The family's statements on the DeltaCodec (43_delta_codec.md): the checks that DFWD and DINV share, that the codec
loses nothing (rule R132), and so that DEC rebuilds the planar frames that ENC put into its stream (rule R162). -/
namespace Sys2Proof.Proofs

open Sys2Proof.Machine Sys2Proof.Safety

/-! ### The outcomes of DFWD and DINV from their checks (rules R134 and R135) -/

/-- The checks of a command that takes two buffers of one length and leaves one buffer, in their order. -/
def twoBuffersChecked (f : Buffer → Buffer → Buffer) (q : Queue) : Checked :=
  takeTwo q fun a b => checkLen a.length b.length <| .ok [f a b]

theorem checkedOf_dfwd (cfg : Config) (w h : Nat) (q : Queue) :
    checkedOf cfg .dfwd w h q = twoBuffersChecked deltaFwd q := rfl

theorem checkedOf_dinv (cfg : Config) (w h : Nat) (q : Queue) :
    checkedOf cfg .dinv w h q = twoBuffersChecked deltaInv q := rfl

section TwoBuffers

variable {i : Instr} {s : State} {f : Buffer → Buffer → Buffer} (hi : isProcessing i = true)
  (hchecked : checkedOf hw i s.w.toNat s.h.toNat s.inq = twoBuffersChecked f s.inq)
include hi hchecked

theorem endsIn_of_buffer_count (hcount : s.inq.length ≠ 2) : EndsIn i 5 s := by
  refine endsIn_of_checkedOf (e := .operandCount) hi ?_
  rw [hchecked, twoBuffersChecked, takeTwo_bad hcount]

theorem endsIn_of_unequal_lengths {a b : Buffer} (hinq : s.inq = [a, b]) (hlen : a.length ≠ b.length) :
    EndsIn i 2 s := by
  refine endsIn_of_checkedOf (e := .sizeMismatch) hi ?_
  rw [hchecked, twoBuffersChecked, hinq, takeTwo_pair, checkLen_bad hlen]

theorem yields_of_equal_lengths {a b : Buffer} (hinq : s.inq = [a, b]) (hlen : a.length = b.length) :
    Yields i [f a b] s := by
  refine yields_of_checkedOf hi ?_
  rw [hchecked, twoBuffersChecked, hinq, takeTwo_pair, checkLen_ok hlen]

end TwoBuffers

/-- DFWD of two buffers of one length leaves their difference. -/
theorem dfwd_yields {s : State} {previous current : Buffer} (hinq : s.inq = [previous, current])
    (hlen : previous.length = current.length) : Yields .dfwd [deltaFwd previous current] s :=
  yields_of_equal_lengths rfl (checkedOf_dfwd ..) hinq hlen

/-- DINV of two buffers of one length leaves their sum. -/
theorem dinv_yields {s : State} {previous delta : Buffer} (hinq : s.inq = [previous, delta])
    (hlen : previous.length = delta.length) : Yields .dinv [deltaInv previous delta] s :=
  yields_of_equal_lengths rfl (checkedOf_dinv ..) hinq hlen

/-- DINV's function gives the byte-wise sum of two buffers of one length (rule R131). -/
theorem deltaInv_isSumOf {previous delta : Buffer} (h : previous.length = delta.length) :
    IsSumOf previous delta (deltaInv previous delta) := by
  refine ⟨deltaInv_length h, ?_⟩
  rintro k _ _ ⟨x, hx, rfl⟩ ⟨y, hy, rfl⟩
  exact ⟨x + y, deltaInv_get previous delta k x y hx hy, BitVec.toNat_add x y⟩

/-- Settles O23: the checks in their order, and the difference of the two buffers. -/
theorem dfwdOutcomes : Obligations.DfwdOutcomes := by
  refine ⟨by decide, fun s => ⟨endsIn_of_buffer_count rfl (checkedOf_dfwd ..), fun previous current => ?_,
    fun previous current hinq hlen => ?_⟩⟩
  · exact endsIn_of_unequal_lengths rfl (checkedOf_dfwd ..)
  · exact ⟨_, deltaFwd_isDeltaOf hlen, dfwd_yields hinq hlen⟩

/-- Settles O24: the checks in their order, and the sum of the two buffers. -/
theorem dinvOutcomes : Obligations.DinvOutcomes := by
  refine ⟨by decide, fun s => ⟨endsIn_of_buffer_count rfl (checkedOf_dinv ..), fun previous delta => ?_,
    fun previous delta hinq hlen => ?_⟩⟩
  · exact endsIn_of_unequal_lengths rfl (checkedOf_dinv ..)
  · exact ⟨_, deltaInv_isSumOf hlen, dinv_yields hinq hlen⟩

/-! ### The codec loses nothing (rule R132) -/

/-- A byte operation that undoes another one undoes it at every index of two buffers of one length. -/
theorem zipWith_zipWith_cancel {f g : Byte → Byte → Byte} (hfg : ∀ p x, f p (g p x) = x) {a b : Buffer}
    (h : a.length = b.length) : List.zipWith f a (List.zipWith g a b) = b := by
  induction a generalizing b with
  | nil => exact (List.eq_nil_of_length_eq_zero h.symm).symm
  | cons p a ih =>
    cases b with
    | nil => cases h
    | cons x b => rw [List.zipWith_cons_cons, List.zipWith_cons_cons, hfg, ih (Nat.succ.inj h)]

theorem deltaInv_deltaFwd {a b : Buffer} (h : a.length = b.length) : deltaInv a (deltaFwd a b) = b :=
  zipWith_zipWith_cancel add_sub_cancel h

theorem deltaFwd_deltaInv {a b : Buffer} (h : a.length = b.length) : deltaFwd a (deltaInv a b) = b :=
  zipWith_zipWith_cancel add_sub_cancel_left h

/-- Settles O34: DFWD leaves `delta_fwd` of the two buffers, and DINV adds it back. -/
theorem deltaCodecIsLossless : Obligations.DeltaCodecIsLossless := by
  refine fun a b h => ⟨deltaInv_deltaFwd h, deltaFwd_deltaInv h, fun s => ⟨deltaFwd a b, dfwd_yields rfl h, ?_⟩⟩
  have hdinv : Yields .dinv [deltaInv a (deltaFwd a b)] { s with inq := [a, deltaFwd a b] } :=
    dinv_yields rfl (h.trans (deltaFwd_length h).symm)
  rwa [deltaInv_deltaFwd h] at hdinv

/-! ### The stream loses no frame (rules R150, R160 and R162) -/

theorem chunks_nil (n : Nat) : chunks n [] = [] := by simp [chunks]

/-- The chunks of the delta frames after `p`, added up from `p`, are the frames they were made from. -/
theorem reconstructAfter_chunks_deltaFrames {n : Nat} (hn : 0 < n) {p : Buffer} {q : Queue} (hp : p.length = n)
    (hq : ∀ b ∈ q, b.length = n) : reconstructAfter p (chunks n (deltaFrames p q)) = q := by
  induction q generalizing p with
  | nil => rw [deltaFrames, chunks_nil, reconstructAfter]
  | cons c q ih =>
    have hc : c.length = n := hq c List.mem_cons_self
    have hpc : p.length = c.length := hp.trans hc.symm
    rw [deltaFrames, chunks_append n hn _ _ ((deltaFwd_length hpc).trans hc), reconstructAfter, deltaInv_deltaFwd hpc,
      ih hc fun b hb => hq b (List.mem_cons_of_mem c hb)]

/-- The frames that the Decoder rebuilds from a stream are those that the Encoder made it from. -/
theorem reconstruct_chunks_streamOf {n : Nat} (hn : 0 < n) {q : Queue} (hq : ∀ b ∈ q, b.length = n) :
    reconstruct (chunks n (streamOf q)) = q := by
  cases q with
  | nil => rw [streamOf, chunks_nil, reconstruct]
  | cons key q =>
    have hkey : key.length = n := hq key List.mem_cons_self
    rw [streamOf, chunks_append n hn _ _ hkey, reconstruct,
      reconstructAfter_chunks_deltaFrames hn hkey fun b hb => hq b (List.mem_cons_of_mem key hb)]

/-- Decoding the stream of the planar frames of a queue gives the inverse transcoding of each (rule R162 (c)). -/
theorem decodeStream_streamOf_planarFrames {w h : Nat} (hd : 0 < w ∧ 0 < h ∧ w % 2 = 0 ∧ h % 2 = 0) (q : Queue) :
    decodeStream hw (streamOf (planarFrames w h q)) w h =
      q.map fun raw => transcodeInv hw (transcodeFwd hw raw w h) w h := by
  obtain ⟨hw0, hh0, hw2, hh2⟩ := hd
  have hlen : ∀ pl ∈ planarFrames w h q, pl.length = frameLen w h := by
    rw [frameLen_eq hw2 hh2]
    exact length_of_mem_planarFrames hw2 hh2 q
  rw [decodeStream, reconstruct_chunks_streamOf (frameLen_pos ⟨hw0, hh0⟩) hlen, planarFrames, List.map_map]
  rfl

/-! ### DEC of what ENC gave (rules R161 and R162) -/

theorem decompressed_some {cfg : Config} {c x : Buffer} (h : cfg.codec.decompress c = some x)
    (k : Buffer → Checked) : decompressed cfg c k = k x := by
  rw [decompressed, h]

theorem checkWholeFrames_ok {length flen : Nat} (h : length % flen = 0) (k : Checked) :
    checkWholeFrames length flen k = k := if_pos h

/-- DEC of one buffer that decompresses to whole frames leaves the pictures of that stream (rule R161). -/
theorem dec_yields {s : State} {c x : Buffer} (hd : DimOk s) (hinq : s.inq = [c])
    (hx : hw.codec.decompress c = some x) (hwhole : x.length % frameLen s.w.toNat s.h.toNat = 0) :
    Yields .dec (decodeStream hw x s.w.toNat s.h.toNat) s := by
  refine yields_of_checkedOf rfl ?_
  rw [checkedOf, decChecked, checkDims_ok hd, hinq, takeOne_single, decompressed_some hx, checkWholeFrames_ok hwhole]

/-- The stream of planar frames leaves no partial chunk (rule R152 (a)). -/
theorem streamOf_planarFrames_length_mod {w h : Nat} (hw2 : w % 2 = 0) (hh2 : h % 2 = 0) (q : Queue) :
    (streamOf (planarFrames w h q)).length % frameLen w h = 0 := by
  rw [streamOf_length _ _ (length_of_mem_planarFrames hw2 hh2 q), ← frameLen_eq hw2 hh2]
  exact Nat.mul_mod_left _ _

/-- ENC of frames of the right length at legal dimensions leaves the compression of their stream (rule R151). -/
theorem exec_enc_ok {s : State} (hd : DimOk s) (hlen : ∀ raw ∈ s.inq, raw.length = rawSize s) :
    exec .enc s =
      .next (s.succeed [hw.codec.compress (streamOf (planarFrames s.w.toNat s.h.toNat s.inq))]) := by
  rw [exec_processing .enc rfl, checkedOf, encChecked_ok hd hlen, processing_hw_ok]

/-- Settles O43: decompression gives ENC's stream back, the stream loses no planar frame, and ENC leaves W and H. -/
theorem decodeRestoresEveryEncodedFrame : Obligations.DecodeRestoresEveryEncodedFrame := by
  intro s hd hlen
  have ⟨_, _, hw2, hh2⟩ := hd
  refine ⟨_, _, exec_enc_ok hd hlen, rfl, ?_⟩
  rw [← decodeStream_streamOf_planarFrames hd]
  exact dec_yields hd rfl (hw.codec.law _) (streamOf_planarFrames_length_mod hw2 hh2 s.inq)

end Sys2Proof.Proofs
end

section
/-! The family's statements on the StreamCompressor (44_stream_compressor.md): the checks of CMPR and DCMP, and the law
of rule R143 read as a fact about the two commands. -/
namespace Sys2Proof.Proofs

open Sys2Proof.Machine Sys2Proof.Safety

theorem decompressed_none {cfg : Config} {c : Buffer} (h : cfg.codec.decompress c = none) (k : Buffer → Checked) :
    decompressed cfg c k = .error .corruptStream := by
  rw [decompressed, h]

/-! ### The outcomes of CMPR and DCMP from their checks (rules R145 and R146) -/

section OneBuffer

variable {s : State}

/-- A command whose first check is the count of one buffer ends in OperandCountError at any other count. -/
theorem endsIn_of_operand_count {i : Instr} {k : Buffer → Checked} (hi : isProcessing i = true)
    (hchecked : checkedOf hw i s.w.toNat s.h.toNat s.inq = takeOne s.inq k) (hcount : s.inq.length ≠ 1) :
    EndsIn i 5 s := by
  refine endsIn_of_checkedOf (e := .operandCount) hi ?_
  rw [hchecked, takeOne_bad hcount]

theorem cmpr_yields {x : Buffer} (hinq : s.inq = [x]) : Yields .cmpr [hw.codec.compress x] s := by
  refine yields_of_checkedOf rfl ?_
  rw [checkedOf, cmprChecked, hinq, takeOne_single]

theorem dcmp_endsIn_of_corrupt {c : Buffer} (hinq : s.inq = [c]) (hc : hw.codec.decompress c = none) :
    EndsIn .dcmp 3 s := by
  refine endsIn_of_checkedOf (e := .corruptStream) rfl ?_
  rw [checkedOf, dcmpChecked, hinq, takeOne_single, decompressed_none hc]

theorem dcmp_yields {c x : Buffer} (hinq : s.inq = [c]) (hc : hw.codec.decompress c = some x) :
    Yields .dcmp [x] s := by
  refine yields_of_checkedOf rfl ?_
  rw [checkedOf, dcmpChecked, hinq, takeOne_single, decompressed_some hc]

/-- The law of rule R143: what CMPR made is always accepted. -/
theorem dcmp_yields_of_compress {x : Buffer} (hinq : s.inq = [hw.codec.compress x]) : Yields .dcmp [x] s :=
  dcmp_yields hinq (hw.codec.law x)

end OneBuffer

/-- Settles O25: the operand count is CMPR's only check. -/
theorem cmprOutcomes : Obligations.CmprOutcomes :=
  ⟨by decide, fun _ => ⟨endsIn_of_operand_count rfl rfl, fun _ => cmpr_yields⟩⟩

/-- Settles O26: the operand count, then whether the one buffer decompresses. -/
theorem dcmpOutcomes : Obligations.DcmpOutcomes := by
  refine ⟨by decide, fun s => ⟨endsIn_of_operand_count rfl rfl, ?_, fun _ => dcmp_yields_of_compress⟩⟩
  intro c hinq
  split
  case h_1 hc => exact dcmp_endsIn_of_corrupt hinq hc
  case h_2 x hc => exact dcmp_yields hinq hc

/-- Settles O35: the law of rule R143, and the outcomes of CMPR and then DCMP under it. -/
theorem compressionIsLossless : Obligations.CompressionIsLossless := fun x _ =>
  ⟨hw.codec.law x, hw.codec.compress x, cmpr_yields rfl, dcmp_yields_of_compress rfl⟩

end Sys2Proof.Proofs
end

section
/-! The family's statements on the Encoder (45_encoder.md): output shows that ENC accepted its input, the length of the
stream it compressed (rule R152), and the sequence of no frames (rules R153 and R163). -/
namespace Sys2Proof.Proofs

open Sys2Proof.Machine Sys2Proof.Safety

/-! ### The stream length invariant (rule R152) -/

/-- No command that ends in an error leaves output (rule R176). -/
theorem outq_eq_nil_of_endsIn {i : Instr} {c : Nat} {s t : State} (herr : EndsIn i c s) (h : exec i s = .next t) :
    t.outq = [] := by
  obtain ⟨u, hu, -, -, -, houtq, -⟩ := herr
  cases hu.symm.trans h
  exact houtq

/-- Where ENC left output, both its checks passed (rule R151). -/
theorem enc_checks_of_output {s t : State} (h : exec .enc s = .next t) (houtq : t.outq ≠ []) :
    DimOk s ∧ ∀ raw ∈ s.inq, raw.length = rawSize s := by
  have hd : DimOk s := by
    by_contra hbad
    exact houtq (outq_eq_nil_of_endsIn (endsIn_of_bad_dims rfl hbad) h)
  refine ⟨hd, fun raw hmem => ?_⟩
  by_contra hlen
  have herr : EndsIn .enc 2 s := endsIn_of_checkedOf (e := .sizeMismatch) rfl (encChecked_bad_length hd hmem hlen)
  exact houtq (outq_eq_nil_of_endsIn herr h)

/-- The stream holds one planar frame's length for each frame (rules R36 and R152 (a)). -/
theorem streamOf_planarFrames_length {w h : Nat} (hw2 : w % 2 = 0) (hh2 : h % 2 = 0) (q : Queue) :
    (streamOf (planarFrames w h q)).length = q.length * (3 * w * h / 2) := by
  rw [streamOf_length _ _ (length_of_mem_planarFrames hw2 hh2 q), planarFrames_length]

/-- Settles O42: output means that the checks passed, so it is the compression of the stream of INQ's frames. -/
theorem encoderOutputHoldsWholeFrames : Obligations.EncoderOutputHoldsWholeFrames := by
  intro s t c h houtq
  obtain ⟨hd, hlen⟩ := enc_checks_of_output h (by simp [houtq])
  have ⟨_, _, hw2, hh2⟩ := hd
  rw [exec_enc_ok hd hlen] at h
  cases h
  cases houtq
  exact ⟨_, hw.codec.law _, streamOf_planarFrames_length hw2 hh2 s.inq⟩

/-! ### No frames (rules R153 and R163) -/

theorem decodeStream_nil (cfg : Config) (w h : Nat) : decodeStream cfg [] w h = [] := by
  rw [decodeStream, chunks_nil, reconstruct, List.map_nil]

/-- ENC of no frames compresses the empty stream. -/
theorem enc_yields_of_no_frames {s : State} (hd : DimOk s) (hinq : s.inq = []) :
    Yields .enc [hw.codec.compress []] s := by
  have hlen : ∀ raw ∈ s.inq, raw.length = rawSize s := by simp [hinq]
  have henc := exec_enc_ok hd hlen
  rw [hinq] at henc
  exact ⟨_, henc, succeed_succeeded _ s⟩

/-- DEC of the empty stream leaves no picture. -/
theorem dec_yields_of_no_frames {s : State} {c : Buffer} (hd : DimOk s) (hinq : s.inq = [c])
    (hc : hw.codec.decompress c = some []) : Yields .dec [] s := by
  have hdec := dec_yields hd hinq hc (Nat.zero_mod _)
  rwa [decodeStream_nil] at hdec

/-- Settles O30: every check on frames is vacuous, and both streams are empty. -/
theorem zeroFramesAreLegal : Obligations.ZeroFramesAreLegal :=
  fun _ hd => ⟨enc_yields_of_no_frames hd, fun _ => dec_yields_of_no_frames hd⟩

end Sys2Proof.Proofs
end

section
/-! The family's statements on the Decoder (46_decoder.md): the chunks of a stream as its slices, the frames added up
from them (rule R160), and DEC's checks in their order (rule R161). -/
namespace Sys2Proof.Proofs

open Sys2Proof.Machine Sys2Proof.Safety

/-! ### The chunks of a stream (rule R160 step 2) -/

theorem chunks_getElem?_eq_slice {n k : Nat} {x : Buffer} (hk : k < x.length / n) :
    (chunks n x)[k]? = some (slice x (k * n) ((k + 1) * n)) := by
  rw [chunks_get n x k hk, slice, List.drop_take, Nat.succ_mul, Nat.add_sub_cancel_left]

/-- No chunk is cut short by the end of the stream. -/
theorem length_of_mem_chunks {n : Nat} {x : Buffer} : ∀ b ∈ chunks n x, b.length = n := by
  intro b hb
  obtain ⟨k, hk, rfl⟩ := List.mem_map.1 hb
  have hend : (k + 1) * n ≤ x.length :=
    (Nat.mul_le_mul_right n (List.mem_range.1 hk)).trans (Nat.div_mul_le_self x.length n)
  rw [Nat.succ_mul] at hend
  rw [List.length_take, List.length_drop]
  omega

/-! ### The reconstructed frames (rule R160 step 3) -/

theorem reconstruct_getElem?_zero (q : Queue) : (reconstruct q)[0]? = q[0]? := by
  cases q with
  | nil => rfl
  | cons key q => rfl

/-- After a frame `p`, each frame is the sum of the frame just before it and its own delta. -/
theorem reconstructAfter_getElem? {k : Nat} {p previous delta : Buffer} {q : Queue}
    (hprevious : (p :: reconstructAfter p q)[k]? = some previous) (hdelta : q[k]? = some delta) :
    (reconstructAfter p q)[k]? = some (deltaInv previous delta) := by
  induction q generalizing p k with
  | nil => cases hdelta
  | cons d q ih =>
    cases k with
    | zero =>
      cases hprevious
      cases hdelta
      rfl
    | succ k => exact ih hprevious hdelta

/-- Every later frame is the sum of the reconstructed frame just before it and its own chunk. -/
theorem reconstruct_getElem?_succ {k : Nat} {previous delta : Buffer} {q : Queue}
    (hprevious : (reconstruct q)[k]? = some previous) (hdelta : q[k + 1]? = some delta) :
    (reconstruct q)[k + 1]? = some (deltaInv previous delta) := by
  cases q with
  | nil => cases hdelta
  | cons key q => exact reconstructAfter_getElem? hprevious hdelta

theorem length_of_mem_reconstructAfter {n : Nat} {p : Buffer} {q : Queue} (hp : p.length = n)
    (hq : ∀ b ∈ q, b.length = n) : ∀ pl ∈ reconstructAfter p q, pl.length = n := by
  induction q generalizing p with
  | nil => exact fun _ hpl => nomatch hpl
  | cons d q ih =>
    obtain ⟨hd, hq⟩ := List.forall_mem_cons.1 hq
    have hsum : (deltaInv p d).length = n := (deltaInv_length (hp.trans hd.symm)).trans hd
    exact List.forall_mem_cons.2 ⟨hsum, ih hsum hq⟩

/-- Chunks of one length are added up to frames of that length. -/
theorem length_of_mem_reconstruct {n : Nat} {q : Queue} (hq : ∀ b ∈ q, b.length = n) :
    ∀ pl ∈ reconstruct q, pl.length = n := by
  cases q with
  | nil => exact hq
  | cons key q =>
    obtain ⟨hkey, hq⟩ := List.forall_mem_cons.1 hq
    exact List.forall_mem_cons.2 ⟨hkey, length_of_mem_reconstructAfter hkey hq⟩

/-! ### The frames of a stream, slice by slice -/

/-- The planar frames that the Decoder adds up from the chunks of a stream. -/
def streamFrames (n : Nat) (x : Buffer) : Queue := reconstruct (chunks n x)

section StreamFrames

variable {n : Nat} {x : Buffer}

theorem streamFrames_length : (streamFrames n x).length = x.length / n := by
  rw [streamFrames, reconstruct_length, chunks_length]

/-- The k-th frame comes with its own chunk of the stream. -/
theorem chunks_getElem?_of_streamFrames {k : Nat} {pl : Buffer} (hpl : (streamFrames n x)[k]? = some pl) :
    (chunks n x)[k]? = some (slice x (k * n) ((k + 1) * n)) := by
  obtain ⟨hk, -⟩ := List.getElem?_eq_some_iff.1 hpl
  exact chunks_getElem?_eq_slice (hk.trans_eq streamFrames_length)

/-- The keyframe is the first chunk. -/
theorem streamFrames_zero_eq_slice {pl : Buffer} (hpl : (streamFrames n x)[0]? = some pl) : pl = slice x 0 n := by
  have hchunk := chunks_getElem?_of_streamFrames hpl
  rw [streamFrames, reconstruct_getElem?_zero, hchunk, Nat.zero_mul, Nat.zero_add, Nat.one_mul] at hpl
  exact (Option.some.inj hpl).symm

/-- Every later frame is the byte-wise sum of the frame just before it and its own chunk. -/
theorem streamFrames_succ_isSumOf {k : Nat} {previous current : Buffer}
    (hprevious : (streamFrames n x)[k]? = some previous) (hcurrent : (streamFrames n x)[k + 1]? = some current) :
    IsSumOf previous (slice x ((k + 1) * n) ((k + 2) * n)) current := by
  have hchunk := chunks_getElem?_of_streamFrames hcurrent
  have hlen : previous.length = (slice x ((k + 1) * n) ((k + 2) * n)).length :=
    (length_of_mem_reconstruct length_of_mem_chunks _ (List.mem_of_getElem? hprevious)).trans
      (length_of_mem_chunks _ (List.mem_of_getElem? hchunk)).symm
  rw [streamFrames, reconstruct_getElem?_succ hprevious hchunk] at hcurrent
  cases hcurrent
  exact deltaInv_isSumOf hlen

end StreamFrames

/-! ### The pictures of a stream (rule R160 step 4) -/

section Pictures

variable {w h : Nat} {x : Buffer}

/-- One picture for each frame. -/
theorem decodeStream_length : (decodeStream hw x w h).length = (streamFrames (frameLen w h) x).length :=
  List.length_map ..

/-- Each picture is the RawFrame of its own frame. -/
theorem decodeStream_isRawOf {k : Nat} {pl raw : Buffer} (hpl : (streamFrames (frameLen w h) x)[k]? = some pl)
    (hraw : (decodeStream hw x w h)[k]? = some raw) : IsRawOf w h pl raw := by
  rw [streamFrames] at hpl
  rw [decodeStream, List.getElem?_map, hpl, Option.map_some] at hraw
  cases hraw
  exact transcodeInv_isRawOf pl w h

end Pictures

/-! ### DEC's errors in their order (rules R161 and R178) -/

theorem checkWholeFrames_bad {length flen : Nat} (h : length % flen ≠ 0) (k : Checked) :
    checkWholeFrames length flen k = .error .corruptStream := if_neg h

section DecErrors

variable {s : State} (hd : DimOk s)
include hd

theorem dec_endsIn_of_operand_count (hcount : s.inq.length ≠ 1) : EndsIn .dec 5 s :=
  endsIn_of_operand_count rfl (checkDims_ok hd _) hcount

/-- The stream does not decompress. -/
theorem dec_endsIn_of_corrupt {c : Buffer} (hinq : s.inq = [c]) (hc : hw.codec.decompress c = none) :
    EndsIn .dec 3 s := by
  refine endsIn_of_checkedOf (e := .corruptStream) rfl ?_
  rw [checkedOf, decChecked, checkDims_ok hd, hinq, takeOne_single, decompressed_none hc]

/-- The stream decompresses, and a partial chunk is left over: the whole command fails (90_conflicts.md C2). -/
theorem dec_endsIn_of_partial_chunk {c x : Buffer} (hinq : s.inq = [c]) (hx : hw.codec.decompress c = some x)
    (hpartial : x.length % frameLen s.w.toNat s.h.toNat ≠ 0) : EndsIn .dec 3 s := by
  refine endsIn_of_checkedOf (e := .corruptStream) rfl ?_
  rw [checkedOf, decChecked, checkDims_ok hd, hinq, takeOne_single, decompressed_some hx,
    checkWholeFrames_bad hpartial]

end DecErrors

/-- Settles O28: the checks in their order; on success the frames are those added up from the chunks, and the pictures
are what `decodeStream` makes of them. -/
theorem decOutcomes : Obligations.DecOutcomes := by
  refine ⟨by decide, fun s => ⟨endsIn_of_bad_dims rfl, dec_endsIn_of_operand_count, ?_, ?_⟩⟩
  · rintro c hd hinq (hc | ⟨x, hx, hpartial⟩)
    · exact dec_endsIn_of_corrupt hd hinq hc
    · have ⟨_, _, hw2, hh2⟩ := hd
      exact dec_endsIn_of_partial_chunk hd hinq hx (by rwa [frameLen_eq hw2 hh2])
  · intro c x hd hinq hx hwhole
    have ⟨_, _, hw2, hh2⟩ := hd
    rw [planarSize, ← frameLen_eq hw2 hh2] at hwhole ⊢
    exact ⟨streamFrames (frameLen s.w.toNat s.h.toNat) x, decodeStream hw x s.w.toNat s.h.toNat,
      streamFrames_length, decodeStream_length, fun _ => streamFrames_zero_eq_slice,
      fun _ _ _ => streamFrames_succ_isSumOf, fun _ _ _ => decodeStream_isRawOf, dec_yields hd hinq hx hwhole⟩

end Sys2Proof.Proofs
end

section
/-! The family's statements on the errors of the processing commands (60_exceptions.md): the first check that fails
(rule R178), the table of rule R179, and the stream that does not decompress (rule R173). -/
namespace Sys2Proof.Proofs

open Sys2Proof.Machine Sys2Proof.Safety

/-! ### The first check that fails (rule R178) -/

/-- INQ does not hold the number of buffers that the command takes (rule R175); ENC takes any number. -/
def WrongCount (i : Instr) (q : Queue) : Prop :=
  i ∈ [.xfwd, .xinv, .cmpr, .dcmp, .dec] ∧ q.length ≠ 1 ∨ i ∈ [.dfwd, .dinv] ∧ q.length ≠ 2

section
variable {allowed : List ErrCode}

theorem raisesOnly_takeOne_of_count {q : Queue} {k : Buffer → Checked} (hq : q.length = 1)
    (hk : ∀ b, RaisesOnly allowed (k b)) : RaisesOnly allowed (takeOne q k) := by
  obtain ⟨b, rfl⟩ := List.length_eq_one_iff.1 hq
  exact hk b

theorem raisesOnly_takeTwo_of_count {q : Queue} {k : Buffer → Buffer → Checked} (hq : q.length = 2)
    (hk : ∀ a b, RaisesOnly allowed (k a b)) : RaisesOnly allowed (takeTwo q k) := by
  obtain ⟨a, b, rfl⟩ := List.length_eq_two.1 hq
  exact hk a b

theorem raisesOnly_checkDims_of_ok {w h : Nat} {k : Checked} (hd : 0 < w ∧ 0 < h ∧ w % 2 = 0 ∧ h % 2 = 0)
    (hk : RaisesOnly allowed k) : RaisesOnly allowed (checkDims w h k) := by
  rwa [checkDims_ok hd]

end

section FirstError

variable (cfg : Config) {i : Instr} {w h : Nat} {q : Queue}
  (hd : usesDims i = true → 0 < w ∧ 0 < h ∧ w % 2 = 0 ∧ h % 2 = 0)
include hd

/-- Once the dimensions are no error, a wrong number of buffers is the first. -/
theorem checkedOf_wrong_count (hq : WrongCount i q) : checkedOf cfg i w h q = .error .operandCount := by
  obtain ⟨hi, hone⟩ | ⟨hi, htwo⟩ := hq
  · cases i with
    | xfwd | xinv | dec => exact (checkDims_ok (hd rfl) _).trans (takeOne_bad hone _)
    | cmpr | dcmp => exact takeOne_bad hone _
    | dfwd | dinv | enc => simp at hi
    | nop | setw | seth | putb | newb | clri | clro | clre | srst => simp at hi
  · cases i with
    | dfwd | dinv => exact takeTwo_bad htwo _
    | xfwd | xinv | cmpr | dcmp | enc | dec => simp at hi
    | nop | setw | seth | putb | newb | clri | clro | clre | srst => simp at hi

/-- Once neither the dimensions nor the number of buffers is an error, only a length or the stream can be. -/
theorem checkedOf_right_count (hq : ¬WrongCount i q) :
    RaisesOnly [.sizeMismatch, .corruptStream] (checkedOf cfg i w h q) := by
  simp only [WrongCount, not_or, not_and, not_not] at hq
  obtain ⟨hone, htwo⟩ := hq
  cases i with
  | xfwd | xinv =>
    exact raisesOnly_checkDims_of_ok (hd rfl) <| raisesOnly_takeOne_of_count (hone (by simp)) fun _ =>
      raisesOnly_checkLen (by decide) (raisesOnly_ok _)
  | dfwd | dinv =>
    exact raisesOnly_takeTwo_of_count (htwo (by simp)) fun _ _ => raisesOnly_checkLen (by decide) (raisesOnly_ok _)
  | cmpr => exact raisesOnly_takeOne_of_count (hone (by simp)) fun _ => raisesOnly_ok _
  | dcmp =>
    exact raisesOnly_takeOne_of_count (hone (by simp)) fun _ =>
      raisesOnly_decompressed (by decide) fun _ => raisesOnly_ok _
  | enc => exact raisesOnly_checkDims_of_ok (hd rfl) (raisesOnly_checkAllLen (by decide) (raisesOnly_ok _))
  | dec =>
    exact raisesOnly_checkDims_of_ok (hd rfl) <| raisesOnly_takeOne_of_count (hone (by simp)) fun _ =>
      raisesOnly_decompressed (by decide) fun _ => raisesOnly_checkWholeFrames (by decide) (raisesOnly_ok _)
  | nop | setw | seth | putb | newb | clri | clro | clre | srst => exact raisesOnly_ok _

end FirstError

/-- DimensionError is the error exactly of bad dimensions that the command uses. -/
theorem checkedOf_dimension_iff (cfg : Config) (i : Instr) (w h : Nat) (q : Queue) :
    checkedOf cfg i w h q = .error .dimension ↔
      usesDims i = true ∧ ¬(0 < w ∧ 0 < h ∧ w % 2 = 0 ∧ h % 2 = 0) := by
  refine ⟨fun herr => ?_, fun ⟨hi, hbad⟩ => checkedOf_bad_dims cfg hi hbad q⟩
  by_contra hgood
  have hd : usesDims i = true → 0 < w ∧ 0 < h ∧ w % 2 = 0 ∧ h % 2 = 0 := fun hi =>
    by_contra fun hbad => hgood ⟨hi, hbad⟩
  by_cases hq : WrongCount i q
  · cases herr.symm.trans (checkedOf_wrong_count cfg hd hq)
  · exact absurd (checkedOf_right_count cfg hd hq _ herr) (by decide)

/-- OperandCountError is the error exactly of a wrong number of buffers at dimensions that are no error. -/
theorem checkedOf_operandCount_iff (cfg : Config) (i : Instr) (w h : Nat) (q : Queue) :
    checkedOf cfg i w h q = .error .operandCount ↔
      (usesDims i = true → 0 < w ∧ 0 < h ∧ w % 2 = 0 ∧ h % 2 = 0) ∧ WrongCount i q := by
  refine ⟨fun herr => ?_, fun ⟨hd, hq⟩ => checkedOf_wrong_count cfg hd hq⟩
  have hd : usesDims i = true → 0 < w ∧ 0 < h ∧ w % 2 = 0 ∧ h % 2 = 0 := by
    intro hi
    by_contra hbad
    cases herr.symm.trans (checkedOf_bad_dims cfg hi hbad q)
  refine ⟨hd, ?_⟩
  by_contra hq
  exact absurd (checkedOf_right_count cfg hd hq _ herr) (by decide)

/-! ### The error that STATUS shows -/

theorem code_toNat_injective {e f : ErrCode} (h : e.code.toNat = f.code.toNat) : e = f := by
  revert h
  cases e <;> cases f <;> decide

/-- After a processing command ERR is the code of an error exactly when the checks end in that error. -/
theorem err_eq_code_iff {i : Instr} {s t : State} (hi : isProcessing i = true) (h : exec i s = .next t)
    (e : ErrCode) :
    t.status.toNat % 16 = e.code.toNat ↔ checkedOf hw i s.w.toNat s.h.toNat s.inq = .error e := by
  rw [exec_processing i hi] at h
  obtain ⟨f, hf, hnext⟩ | ⟨res, hres, hnext⟩ := processing_hw_cases (checkedOf hw i s.w.toNat s.h.toNat s.inq) s
  · cases hnext.symm.trans h
    rw [hf, State.raise_status, statusRaise_low, Except.error.injEq]
    exact ⟨code_toNat_injective, fun heq => by rw [heq]⟩
  · cases hnext.symm.trans h
    have hpos := e.code_pos
    rw [hres, State.succeed_status, statusSuccess_low]
    exact ⟨fun hzero => by omega, nofun⟩

/-- ERR shows only errors of the command's row of rule R179. -/
theorem mem_errorsOf_of_err {i : Instr} {s t : State} {e : ErrCode} (hi : isProcessing i = true)
    (h : exec i s = .next t) (herr : t.status.toNat % 16 = e.code.toNat) : e ∈ errorsOf i :=
  checkedOf_raisesOnly hw i _ _ _ e ((err_eq_code_iff hi h e).1 herr)

theorem mem_of_sizeMismatch_mem_errorsOf {i : Instr} (h : .sizeMismatch ∈ errorsOf i) :
    i ∈ [.xfwd, .xinv, .dfwd, .dinv, .enc] := by
  cases i <;> simp [errorsOf] at h ⊢

theorem mem_of_corruptStream_mem_errorsOf {i : Instr} (h : .corruptStream ∈ errorsOf i) : i ∈ [.dcmp, .dec] := by
  cases i <;> simp [errorsOf] at h ⊢

/-- Settles O32: ERR shows what the checks end in; errors 1 and 5 are exactly the first and the second check, and the
other errors are limited by the rows of rule R179. -/
theorem errorsByCommand : Obligations.ErrorsByCommand := by
  intro i s t hi h
  refine ⟨?_, fun herr => ?_, fun herr => ?_, fun herr => ?_, ?_⟩
  · exact (err_eq_code_iff hi h .dimension).trans (checkedOf_dimension_iff hw i _ _ _)
  · exact mem_of_sizeMismatch_mem_errorsOf (mem_errorsOf_of_err hi h herr)
  · exact mem_of_corruptStream_mem_errorsOf (mem_errorsOf_of_err hi h herr)
  · exact illegalCommand_not_mem_errorsOf i (mem_errorsOf_of_err hi h herr)
  · exact (err_eq_code_iff hi h .operandCount).trans (checkedOf_operandCount_iff hw i _ _ _)

/-! ### A stream that does not decompress (rule R173) -/

/-- In any configuration a failing check is error entry (rules R80 and R176). -/
theorem processing_error (cfg : Config) {checked : Checked} {e : ErrCode} (h : checked = .error e) (s : State) :
    processing cfg checked s = .next (s.raise e) := by
  rw [h, processing]

/-- Settles O29: whether the one buffer decompresses is checked after its count and DEC's dimensions. -/
theorem failedDecompressionIsACorruptStream : Obligations.FailedDecompressionIsACorruptStream := by
  intro cfg s c hinq hc
  refine ⟨⟨_, processing_error cfg ?_ s, raise_raised .corruptStream s⟩,
    fun hd => ⟨_, processing_error cfg ?_ s, raise_raised .corruptStream s⟩⟩
  · rw [dcmpChecked, hinq, takeOne_single, decompressed_none hc]
  · rw [decChecked, checkDims_ok hd, hinq, takeOne_single, decompressed_none hc]

/-! ### An ILLEGAL word (rule R177) -/

/-- Settles O10: the step's equation for an ILLEGAL word, and what raising error 4 writes to STATUS. -/
theorem illegalWordWritesOnlyStatus : Obligations.IllegalWordWritesOnlyStatus := by
  intro s w why hmove hdecode
  have hnext : s.nextMove = some (.word w) := hmove
  exact ⟨_, step_illegal hnext hdecode, statusRaise_low .illegalCommand s.status,
    fun n hn => statusRaise_bit .illegalCommand s.status n hn, rfl, rfl, rfl, rfl, rfl, rfl⟩

end Sys2Proof.Proofs
end

section
/-! The family's statements on reset and runs (70_reset_and_hazards.md): the reset input, the end of the host's list,
that a run over words is never stuck (rule R208), and that its items depend on the items it starts from alone (rule
R201). -/
namespace Sys2Proof.Proofs

open Sys2Proof.Machine Sys2Proof.Safety

/-! ### The reset input and the end of the list -/

/-- Settles O11. The statement writes out the state that `resetItems` leaves. -/
theorem resetInputLeavesTheResetState : Obligations.ResetInputLeavesTheResetState := by
  intro s hmove
  have hnext : s.nextMove = some .reset := hmove
  exact step_reset hnext

theorem step_no_move {s : State} (h : s.nextMove = none) : step s = .refused .noHostMove := by
  simp only [step, h]

/-- Settles O12: at or past the end of the list there is no next move. -/
theorem noStepAfterTheLastMove : Obligations.NoStepAfterTheLastMove :=
  fun _ hend => step_no_move (List.getElem?_eq_none hend)

/-! ### Every word is a step (rule R208) -/

theorem nextMove_of_pending {s : State} {m : HostMove} {ms : List HostMove} (h : pending s = m :: ms) :
    s.nextMove = some m := by
  rw [State.nextMove, ← List.head?_drop]
  exact congrArg List.head? h

/-- A step moves the position on by one and leaves the host's list (rules R11 and R209). -/
theorem step_advances {s t : State} (h : step s = .next t) : t.moves = s.moves ∧ t.pos = s.pos + 1 := by
  obtain ⟨-, rfl⟩ | ⟨w, why, -, -, rfl⟩ | ⟨w, i, -, -, hexec⟩ := step_cases h
  · exact ⟨rfl, rfl⟩
  · exact ⟨rfl, rfl⟩
  · exact exec_keeps_moves hexec

/-- Whatever its opcode, a word is a step, and a run goes on from it with the moves after it. -/
theorem runSteps_word_cons {s : State} {w : Word} {ms : List HostMove} (hs : pending s = .word w :: ms) (n : Nat) :
    ∃ t, step s = .next t ∧ runSteps (n + 1) s = runSteps n t ∧ pending t = ms := by
  have hnext := nextMove_of_pending hs
  obtain ⟨t, ht⟩ : ∃ t, step s = .next t := by
    cases hdecode : decode w with
    | illegal why => exact ⟨_, step_illegal hnext hdecode⟩
    | command i =>
      rw [step_command hnext hdecode]
      exact exec_next i s.advance
  obtain ⟨hmoves, hpos⟩ := step_advances ht
  refine ⟨t, ht, runSteps_step n ht, ?_⟩
  rw [pending, hmoves, hpos, ← List.tail_drop]
  exact congrArg List.tail hs

/-- A run over the words still to be issued answers a next state, one position further for each word. -/
theorem runSteps_words {s : State} {words : List Word} (hs : pending s = words.map .word) :
    ∃ t, runSteps words.length s = .next t ∧ t.pos = s.pos + words.length ∧ t.moves = s.moves := by
  induction words generalizing s with
  | nil => exact ⟨s, rfl, rfl, rfl⟩
  | cons w words ih =>
    obtain ⟨u, hstep, hrun, hpending⟩ := runSteps_word_cons hs words.length
    obtain ⟨hmoves, hpos⟩ := step_advances hstep
    obtain ⟨t, ht, htpos, htmoves⟩ := ih hpending
    refine ⟨t, hrun.trans ht, ?_, htmoves.trans hmoves⟩
    rw [htpos, hpos, List.length_cons]
    omega

theorem pending_load (words : List Word) (s : State) : pending (load words s) = words.map .word := rfl

/-- Settles O13: the run starts with every word of the list pending, at position 0. -/
theorem runsAreNeverStuck : Obligations.RunsAreNeverStuck := by
  intro words s
  obtain ⟨t, hrun, hpos, hmoves⟩ := runSteps_words (pending_load words s)
  exact ⟨t, hrun, hpos.trans (Nat.zero_add _), hmoves⟩

/-! ### The items depend on the items alone (rule R201) -/

/-- A command reads nothing but the five items. -/
theorem exec_sameItems {i : Instr} {s s' t t' : State} (hsame : SameItems s s') (ht : exec i s = .next t)
    (ht' : exec i s' = .next t') : SameItems t t' := by
  have ⟨hwidth, hheight, hstatus, hinq, houtq⟩ := hsame
  have processed (hi : isProcessing i = true) : SameItems t t' := by
    rw [exec_processing i hi] at ht
    rw [exec_processing i hi, hwidth, hheight, hinq] at ht'
    cases hchecked : checkedOf hw i s.w.toNat s.h.toNat s.inq with
    | error e =>
      rw [hchecked, processing_hw_error] at ht ht'
      cases ht
      cases ht'
      exact ⟨hwidth, hheight, congrArg (statusRaise e) hstatus, rfl, rfl⟩
    | ok res =>
      rw [hchecked, processing_hw_ok] at ht ht'
      cases ht
      cases ht'
      exact ⟨hwidth, hheight, congrArg statusSuccess hstatus, rfl, rfl⟩
  cases i with
  | putb b =>
    rw [exec_putb] at ht ht'
    cases ht
    cases ht'
    exact ⟨hwidth, hheight, hstatus, congrArg (appendByte b) hinq, houtq⟩
  | newb =>
    rw [exec_newb] at ht ht'
    cases ht
    cases ht'
    exact ⟨hwidth, hheight, hstatus, congrArg appendBuffer hinq, houtq⟩
  | nop | setw | seth | clri | clro | clre | srst =>
    cases ht
    cases ht'
    simp [SameItems, hwidth, hheight, hstatus, hinq, houtq]
  | xfwd | xinv | dfwd | dinv | cmpr | dcmp | enc | dec => exact processed rfl

/-- The step of a word reads nothing but the word and the five items. -/
theorem step_sameItems {w : Word} {s s' t t' : State} (hsame : SameItems s s') (hs : s.nextMove = some (.word w))
    (hs' : s'.nextMove = some (.word w)) (ht : step s = .next t) (ht' : step s' = .next t') : SameItems t t' := by
  cases hdecode : decode w with
  | illegal why =>
    rw [step_illegal hs hdecode] at ht
    rw [step_illegal hs' hdecode] at ht'
    cases ht
    cases ht'
    obtain ⟨hwidth, hheight, hstatus, hinq, houtq⟩ := hsame
    exact ⟨hwidth, hheight, congrArg (statusRaise .illegalCommand) hstatus, hinq, houtq⟩
  | command i =>
    rw [step_command hs hdecode] at ht
    rw [step_command hs' hdecode] at ht'
    have hadvance : SameItems s.advance s'.advance := hsame
    exact exec_sameItems hadvance ht ht'

/-- Two runs over the same words from the same items end in the same items, wherever the words stand in the two
lists. -/
theorem runSteps_sameItems {words : List Word} {s s' : State} (hsame : SameItems s s')
    (hs : pending s = words.map .word) (hs' : pending s' = words.map .word) :
    ∃ t t', runSteps words.length s = .next t ∧ runSteps words.length s' = .next t' ∧ SameItems t t' := by
  induction words generalizing s s' with
  | nil => exact ⟨s, s', rfl, rfl, hsame⟩
  | cons w words ih =>
    obtain ⟨u, hstep, hrun, hpending⟩ := runSteps_word_cons hs words.length
    obtain ⟨u', hstep', hrun', hpending'⟩ := runSteps_word_cons hs' words.length
    have hnext := step_sameItems hsame (nextMove_of_pending hs) (nextMove_of_pending hs') hstep hstep'
    obtain ⟨t, t', ht, ht', hitems⟩ := ih hnext hpending hpending'
    exact ⟨t, t', hrun.trans ht, hrun'.trans ht', hitems⟩

/-- The word of SRST leaves the reset items, with the words after it pending. -/
theorem runWords_srst_cons (words : List Word) (s : State) :
    ∃ u, runWords (encode .srst :: words) s = runSteps words.length u ∧ SameItems State.reset u ∧
      pending u = words.map .word := by
  obtain ⟨u, hstep, hrun, hpending⟩ := runSteps_word_cons (pending_load (encode .srst :: words) s) words.length
  refine ⟨u, hrun, ?_, hpending⟩
  rw [step_command rfl (decode_encode .srst)] at hstep
  cases hstep
  exact ⟨rfl, rfl, rfl, rfl, rfl⟩

/-- Settles O49: after SRST and after reset the two runs have the same items and the same words to go. -/
theorem srstStartsARunAfresh : Obligations.SrstStartsARunAfresh := by
  intro words s
  obtain ⟨v, hrun, hreset, hpending⟩ := runWords_srst_cons words s
  have hsame : SameItems (load words State.reset) v := hreset
  obtain ⟨u, t, hu, ht, hitems⟩ := runSteps_sameItems hsame (pending_load words _) hpending
  exact ⟨t, u, hrun.trans ht, hu, hitems⟩

end Sys2Proof.Proofs
end

section
/-! The family's statement on the capacity parameters (93_implementation_defined.md U8). -/
namespace Sys2Proof.Proofs

open Sys2Proof.Machine Sys2Proof.Safety

/-- The configuration with QCAP and ALEN at their default (rule R6). -/
def unbounded (cfg : Config) : Config := { cfg with qcap := none, alen := none }

/-- The machine of `cfg` takes the unbounded machine's step when its next state fits, and is refused when not. -/
def OnlyRefuses (cfg : Config) (run : Config → Result) : Prop :=
  ∃ t, run (unbounded cfg) = .next t ∧
    (fits cfg t = true → run cfg = .next t) ∧ (fits cfg t = false → run cfg = .refused .capacityExceeded)

theorem deliver_of_fits {cfg : Config} {t : State} (h : fits cfg t = true) : deliver cfg t = .next t := if_pos h

theorem deliver_of_not_fits {cfg : Config} {t : State} (h : fits cfg t = false) :
    deliver cfg t = .refused .capacityExceeded := if_neg (by simp [h])

theorem deliver_onlyRefuses (cfg : Config) (t : State) : OnlyRefuses cfg fun c => deliver c t :=
  ⟨t, deliver_of_fits (fits_unbounded (unbounded cfg) rfl rfl t), deliver_of_fits, deliver_of_not_fits⟩

/-- A processing command whose checks and result are the same under both capacities. An error leaves both queues
empty, so it always fits. -/
theorem processing_onlyRefuses {cfg : Config} {run : Config → Result} {checked : Checked} {s : State}
    (hrun : run cfg = processing cfg checked s) (hfree : run (unbounded cfg) = processing (unbounded cfg) checked s) :
    OnlyRefuses cfg run := by
  rw [OnlyRefuses, hrun, hfree]
  cases checked with
  | error e =>
    have hfits : fits cfg (s.raise e) = true := fits_empty cfg _ rfl rfl
    exact ⟨s.raise e, rfl, fun _ => rfl, fun h => absurd (hfits.symm.trans h) (by decide)⟩
  | ok res => exact deliver_onlyRefuses cfg (s.succeed res)

/-- Settles O54: PUTB and NEWB deliver a state that no parameter enters, and no processing command's checks or result
read QCAP or ALEN. -/
theorem finiteCapacityOnlyRefuses : Obligations.FiniteCapacityOnlyRefuses := by
  rintro cfg free b s rfl
  change ∀ run ∈ _, OnlyRefuses cfg run
  simp only [List.forall_mem_cons, List.not_mem_nil, false_imp_iff, implies_true, and_true]
  refine ⟨deliver_onlyRefuses cfg _, deliver_onlyRefuses cfg _, ?_, ?_, ?_, ?_, ?_, ?_, ?_, ?_⟩
  all_goals exact processing_onlyRefuses rfl rfl

end Sys2Proof.Proofs
end
